-- ==== Sys2Proof/Word.lean ====
section
/-! DEFINITION. The machine's word types (spec/00_scope.md R7: bit 0 is the least significant bit). -/

namespace Sys2Proof

/-- A byte of memory or of the instruction stream. -/
abbrev Byte := BitVec 8

/-- A doubleword, the element of a vector (spec/00_scope.md R11). -/
abbrev Elem := BitVec 32

/-- A 64-bit general register, address or instruction pointer (spec/10_state.md R26, R27). -/
abbrev Quad := BitVec 64

/-- The storage of one vector register, bits 511:0 (spec/10_state.md R21). -/
abbrev Vec := BitVec 512

/-- The storage of one opmask register (spec/10_state.md R24; KW = 64 by decision D21, assumption 17). -/
abbrev Opmask := BitVec 64

end Sys2Proof
end

