-- ==== Sys2Proof/Syntax.lean ====
section
/-! DEFINITION. The instruction: one constructor for each row of spec/opcode_table.json, with every operand form of
spec/30_encoding.md R60 to R80. The forms an encoding must not have (EVEX.b with a register, zeroing without a mask) have
no term here: the decoder answers #UD for them. -/

namespace Sys2Proof

/-- The vector length `VL` of a form in bits (spec/00_scope.md R11). -/
inductive VecLen where
  | vl256 | vl512
  deriving DecidableEq, Repr

/-- The three encoded forms (spec/00_scope.md R2). -/
inductive Form where
  | vex256 | evex256 | evex512
  deriving DecidableEq, Repr

/-- The legacy prefixes R61 accepts. -/
inductive LegacyPrefix where
  | es | cs | ss | ds | fs | gs
  /-- `67`, the address-size override. -/
  | addr32
  deriving DecidableEq, Repr

/-- The number of a general register (spec/10_state.md R26). -/
abbrev GReg := BitVec 4

/-- The displacement field of an encoding, unscaled (R75, R81). -/
inductive Disp where
  | none
  | disp8 (v : BitVec 8)
  | disp32 (v : BitVec 32)
  deriving DecidableEq, Repr

/-- A memory operand as encoded by ModRM, SIB and displacement (R74). -/
inductive MemRef where
  /-- `mod` = 00, `rm` = 101: relative to the next instruction. -/
  | ripRel (disp : BitVec 32)
  /-- No SIB byte: a base register and a displacement. -/
  | base (b : GReg) (disp : Disp)
  /-- SIB byte with a base register; index 0100 means no index. -/
  | sib (b index : GReg) (scale : BitVec 2) (disp : Disp)
  /-- SIB byte with `mod` = 00 and base field 101: no base, a 32-bit displacement. -/
  | sibNoBase (index : GReg) (scale : BitVec 2) (disp : BitVec 32)
  deriving DecidableEq, Repr

/-- The opmask registers an encoding can name as a writemask (spec/10_state.md R24: not `K[0]`). -/
inductive OpmaskReg where
  | k1 | k2 | k3 | k4 | k5 | k6 | k7
  deriving DecidableEq, Repr

/-- The source's predicates `*no writemask*`, `*merging-masking*`, `zeroing-masking` (R77 to R79). -/
inductive Masking where
  | noWritemask
  | merging (k : OpmaskReg)
  | zeroing (k : OpmaskReg)
  deriving DecidableEq, Repr

/-- Operand 3 of the VEX form: `ymm3/m256`. -/
inductive VexTable where
  | reg (n : BitVec 4)
  | mem (m : MemRef)
  deriving DecidableEq, Repr

/-- Operand 3 of the EVEX forms: `ymm3/m256/m32bcst`, `zmm3/m512/m32bcst`. -/
inductive EvexTable where
  | reg (n : BitVec 5)
  | mem (m : MemRef)
  /-- EVEX.b = 1: one doubleword of memory, replicated (R80). -/
  | bcst (m : MemRef)
  deriving DecidableEq, Repr

/-- The three forms of VPERMPS (spec/00_scope.md R2). `ps`: the legacy prefixes in address order; `d`: operand 1, the
destination; `s1`: operand 2, the index vector; `tbl`: operand 3, the table (R60). -/
inductive Instr where
  /-- `VPERMPS ymm1, ymm2, ymm3/m256` (R100). -/
  | vpermpsVex256 (ps : List LegacyPrefix) (d s1 : BitVec 4) (tbl : VexTable)
  /-- `VPERMPS ymm1 {k1}{z}, ymm2, ymm3/m256/m32bcst` (R101). -/
  | vpermpsEvex256 (ps : List LegacyPrefix) (d s1 : BitVec 5) (msk : Masking) (tbl : EvexTable)
  /-- `VPERMPS zmm1 {k1}{z}, zmm2, zmm3/m512/m32bcst` (R102). -/
  | vpermpsEvex512 (ps : List LegacyPrefix) (d s1 : BitVec 5) (msk : Masking) (tbl : EvexTable)
  deriving DecidableEq, Repr

end Sys2Proof
end

