-- ==== Sys2Proof/Machine/Length.lean ====
section
/-! DEFINITION. The length in bytes of an encoded instruction (spec/30_encoding.md R81). -/

namespace Sys2Proof

/-- Bytes of the displacement field. -/
def Disp.len : Disp → Nat
  | .none => 0
  | .disp8 _ => 1
  | .disp32 _ => 4

/-- Bytes after the ModRM byte of a memory operand: an SIB byte if there is one, and the displacement. -/
def MemRef.len : MemRef → Nat
  | .ripRel _ => 4
  | .base _ disp => disp.len
  | .sib _ _ _ disp => 1 + disp.len
  | .sibNoBase _ _ _ => 5

/-- Bytes after the ModRM byte, VEX form. -/
def VexTable.len : VexTable → Nat
  | .reg _ => 0
  | .mem m => m.len

/-- Bytes after the ModRM byte, EVEX forms. -/
def EvexTable.len : EvexTable → Nat
  | .reg _ => 0
  | .mem m => m.len
  | .bcst m => m.len

/-- `len` of R81: prefixes, 3 or 4 bytes of VEX or EVEX, the opcode, ModRM and what it implies. -/
def Instr.len : Instr → Nat
  | .vpermpsVex256 ps _ _ tbl => ps.length + 3 + 1 + 1 + tbl.len
  | .vpermpsEvex256 ps _ _ _ tbl => ps.length + 4 + 1 + 1 + tbl.len
  | .vpermpsEvex512 ps _ _ _ tbl => ps.length + 4 + 1 + 1 + tbl.len

/-- The form of an instruction. -/
def Instr.form : Instr → Form
  | .vpermpsVex256 _ _ _ _ => .vex256
  | .vpermpsEvex256 _ _ _ _ _ => .evex256
  | .vpermpsEvex512 _ _ _ _ _ => .evex512

/-- The longest legal instruction (R83). -/
def maxLen : Nat := 15

end Sys2Proof
end

