-- ==== Sys2Proof/Config.lean ====
section
/-! DEFINITION. What an implementation fixes (spec/00_scope.md R6), and the choices the spec leaves open
(spec/93_implementation_defined.md U9, U15, U16, U17; assumption 9), as constants without a body: nothing can be proved of
their values. Each is applied to the counter `freeIx` of the state. -/

namespace Sys2Proof

/-- The parameters of R6 that identify an implementation. The enabling bits of R30 and the segment bases are
fields of the state (assumption 1). -/
structure Config where
  /-- CPUID feature flag AVX2. -/
  hasAvx2 : Bool
  /-- CPUID feature flag AVX512F. -/
  hasAvx512f : Bool
  /-- CPUID feature flag AVX512VL. -/
  hasAvx512vl : Bool
  /-- `AC_CHECK`: a misaligned broadcast read may raise #AC (spec/60_exceptions.md R137, OPEN). -/
  acCheck : Bool
  deriving DecidableEq, Repr

/-- U9: #UD or #GP(0) for an encoding both illegal and over-long (assumption 11). -/
opaque Config.decodeChoice : Nat → Nat

/-- #GP(0) or #SS(0) where `Translate` answers the one for a byte of an operand and the other for another byte
(assumption 9). -/
opaque Config.segmentChoice : Nat → Nat

/-- U15, U17: whether a misaligned broadcast read raises #AC(0), and whether #AC or #PF is reported
(assumption 12). -/
opaque Config.acChoice : Nat → Nat

/-- U16: which address inside a faulting page a page fault records (assumption 13). -/
opaque Config.cr2Choice : Nat → Nat

end Sys2Proof
end

