-- ==== Sys2Proof/Machine/Memory.lean ====
section
/-! DEFINITION. Memory as plain data (spec/10_state.md R33): the bytes of the linear address space that are mapped. An
address that is not listed reads as no value: it is not mapped, and `Translate` answers a page fault for it
(spec/20_memory.md R47, assumption 6). -/

namespace Sys2Proof.Machine

/-- The mapped bytes by linear address, addresses strictly rising. -/
abbrev Memory := List Host.Cell

/-- The canonical form: strictly rising addresses, all inside the 64-bit space. -/
abbrev Memory.wf (m : Memory) : Prop :=
  m.Pairwise (fun c d => c.1 < d.1) ∧ ∀ c ∈ m, c.1 < 2 ^ 64

/-- What address `a` reads as; `none` when it is not mapped. -/
def Memory.get : Memory → Nat → Option Byte
  | [], _ => none
  | (x, b) :: m, a => if x = a then some b else Memory.get m a

/-- Maps address `a` with value `b`. VPERMPS never stores (R43): only the launch of a run uses this. -/
def Memory.set : Memory → Nat → Byte → Memory
  | [], a, b => [(a, b)]
  | (x, y) :: m, a, b =>
    if a < x then (a, b) :: (x, y) :: m
    else if a = x then (a, b) :: m
    else (x, y) :: Memory.set m a b

/-- Maps a row of bytes from linear address `a` on, modulo 2^64. -/
def Memory.setBytes (m : Memory) (a : Quad) : List Byte → Memory
  | [] => m
  | b :: bs => Memory.setBytes (Memory.set m a.toNat b) (a + 1) bs

end Sys2Proof.Machine
end

