-- ==== Sys2Proof/Machine/State.lean ====
section
/-! DEFINITION. Everything the spec gives the machine (spec/10_state.md R20 to R35), the reasons a step can stop
(spec/60_exceptions.md R130), and the state after reset (spec/70_reset_and_hazards.md R161). -/

namespace Sys2Proof.Machine

/-- The access kinds `Translate` is asked about (spec/20_memory.md R47). -/
inductive Access where
  | read | fetch
  deriving DecidableEq, Repr

/-- The privilege levels a region answers at (spec/60_exceptions.md R150): all, CPL 3, or CPL 0 to 2. -/
inductive Levels where
  | every | user | supervisor
  deriving DecidableEq, Repr

/-- What `Translate(la, n, access)` answers (R47, decision D8). -/
inductive Answer where
  /-- `ok(bytes-location)`: where the first byte of the region is found. -/
  | location (loc : Quad)
  /-- `fault(#PF, code, la')`. The bits of the code that R134 and R147 fix are computed, the others are `code`'s; `none`
  leaves `la'` open (R134, U16). -/
  | pageFault (code : BitVec 32) (la : Option Quad)
  /-- `fault(#GP, 0)`. -/
  | gp0
  /-- `fault(#SS, 0)`. -/
  | ss0
  /-- Device memory: the spec keeps it outside the model (R45, U18). -/
  | device
  deriving DecidableEq, Repr

/-- A row of the table that holds the parameter `Translate`: a range of linear addresses, the accesses (`none`: both) and
privilege levels it answers, and its answer. The model's choice, assumption 7: the first row that applies answers, for
every byte of its range, whether memory lists a byte there or not. -/
structure Region where
  base : Nat
  size : Nat
  access : Option Access
  levels : Levels
  answer : Answer
  deriving DecidableEq, Repr

/-- The machine. No field of the configuration and control part is ever written by VPERMPS (decision D3). -/
structure State where
  /-- `V[0..31]`. -/
  v : Vector Vec 32
  /-- `K[0..7]`. -/
  k : Vector Opmask 8
  /-- `G[0..15]`: 0 rax, 1 rcx, 2 rdx, 3 rbx, 4 rsp, 5 rbp, 6 rsi, 7 rdi, 8 to 15 r8 to r15. -/
  g : Vector Quad 16
  /-- The address of the instruction being executed (R27). -/
  rip : Quad
  /-- The mapped bytes, code and data (R33), by the location `Translate` gives. -/
  mem : Memory
  /-- `Translate` where it is not the default of R47 (R6, R45, R47). -/
  regions : List Region
  /-- RFLAGS (R28); VM is bit 17, AC bit 18 (R30). -/
  rflags : BitVec 64
  /-- MXCSR (R29). -/
  mxcsr : BitVec 32
  /-- CR0: PE 0, TS 3, AM 18 (R30). -/
  cr0 : BitVec 64
  /-- CR4: LA57 12, OSXSAVE 18 (R30). -/
  cr4 : BitVec 64
  /-- XCR0: SSE 1, AVX 2, opmask 5, ZMM_Hi256 6, Hi16_ZMM 7 (R30). -/
  xcr0 : BitVec 64
  /-- IA32_EFER: LMA 10 (R30). -/
  efer : BitVec 64
  /-- CS.L (R30). -/
  csL : Bool
  /-- CPL (R30, R150). -/
  cpl : BitVec 2
  /-- The CS base, used outside 64-bit mode only (R161, R32). -/
  csBase : Quad
  /-- `FS_BASE` (R32). -/
  fsBase : Quad
  /-- `GS_BASE` (R32). -/
  gsBase : Quad
  /-- The parameters of the implementation (R6). -/
  cfg : Config
  /-- The model's own counter: the next open choice of `Config` (assumption 14). -/
  freeIx : Nat
  deriving DecidableEq, Repr

/-- The exceptions of VPERMPS (R130). Each is the terminal outcome of R140 and carries what R142 says it records: the
saved instruction pointer, and for a page fault its code and CR2. Stopping here is safe (R140, D9: "Errs toward
unprovable"). -/
inductive Fault where
  /-- #UD, vector 6: the decoder and every form's enabling check (R131). Safe. -/
  | ud (savedRip : Quad)
  /-- #NM, vector 7: every form when CR0.TS = 1 (R133). Safe. -/
  | nm (savedRip : Quad)
  /-- #SS(0), vector 12: a memory operand through SS at a non-canonical address, or `Translate` answers it (R136, R47).
  Safe. -/
  | ss0 (savedRip : Quad)
  /-- #GP(0), vector 13: a memory operand elsewhere or an instruction byte at a non-canonical address, `Translate` answers
  it, or an instruction longer than 15 bytes (R135, R147, R47, R83). Safe. -/
  | gp0 (savedRip : Quad)
  /-- #PF(code), vector 14: a byte of the memory operand or of the instruction is not translated (R134, R147). Safe. -/
  | pf (savedRip : Quad) (code : BitVec 32) (cr2 : Quad)
  /-- #AC(0), vector 17: an open choice of a misaligned broadcast read (R137). Safe: the other outcome is admitted. -/
  | ac0 (savedRip : Quad)
  deriving DecidableEq, Repr

/-- The steps that are outside the model. All are safe: nothing can be proved of what follows. -/
inductive Refusal where
  /-- Raised by `exec` for an instruction without a meaning. None is left. Safe. -/
  | notModelled (mnemonic : String)
  /-- Raised by `step`: the bytes are another instruction or none (R92, D12). Safe. -/
  | notVpermps
  /-- Raised by `step` and by every form: 32-bit mode is not admitted (R84, D1). Safe. -/
  | prot32Mode
  /-- Raised by an access to device memory (R45, D7). Safe. -/
  | deviceMemory
  deriving DecidableEq, Repr

/-- The machine right after a power-up or RESET, the table of R161 (assumptions 2, 3, 4). Every VPERMPS encoding is #UD
in it until the steps of R163 are done. -/
def State.reset : State where
  v := Vector.replicate 32 0#512
  k := Vector.replicate 8 0#64
  g := Vector.replicate 16 0#64
  rip := 0x0000FFF0#64
  mem := []
  regions := []
  rflags := 0x00000002#64
  mxcsr := 0x1F80#32
  cr0 := 0x60000010#64
  cr4 := 0#64
  xcr0 := 1#64
  efer := 0#64
  csL := false
  cpl := 0#2
  csBase := 0xFFFF0000#64
  fsBase := 0#64
  gsBase := 0#64
  cfg := { hasAvx2 := true, hasAvx512f := true, hasAvx512vl := true, acCheck := true }
  freeIx := 0

end Sys2Proof.Machine
end

