-- ==== Sys2Proof/Machine/Flags.lean ====
section
/-! DEFINITION. The status and control fields of spec/10_state.md R30 and their reductions to the parameters of
spec/00_scope.md R6. VPERMPS computes no flag (spec/40_vpermps.md R114): this file only reads. -/

namespace Sys2Proof.Machine

/-- CR0.PE. -/
def State.cr0PE (s : State) : Bool := s.cr0.getLsbD 0
/-- CR0.TS, the parameter `CR0_TS`. -/
def State.cr0TS (s : State) : Bool := s.cr0.getLsbD 3
/-- CR0.AM. -/
def State.cr0AM (s : State) : Bool := s.cr0.getLsbD 18
/-- CR4.LA57. -/
def State.cr4LA57 (s : State) : Bool := s.cr4.getLsbD 12
/-- CR4.OSXSAVE. -/
def State.cr4OSXSAVE (s : State) : Bool := s.cr4.getLsbD 18
/-- IA32_EFER.LMA. -/
def State.eferLMA (s : State) : Bool := s.efer.getLsbD 10
/-- RFLAGS.VM. -/
def State.rflagsVM (s : State) : Bool := s.rflags.getLsbD 17
/-- RFLAGS.AC. -/
def State.rflagsAC (s : State) : Bool := s.rflags.getLsbD 18

/-- `OS_ENABLED_AVX`: CR4.OSXSAVE and XCR0[2:1] = 11b. -/
def State.osEnabledAvx (s : State) : Bool :=
  s.cr4OSXSAVE && s.xcr0.extractLsb' 1 2 == 0b11#2

/-- `OS_ENABLED_AVX512`: CR4.OSXSAVE and XCR0[2:1] = 11b and XCR0[7:5] = 111b. -/
def State.osEnabledAvx512 (s : State) : Bool :=
  s.cr4OSXSAVE && s.xcr0.extractLsb' 1 2 == 0b11#2 && s.xcr0.extractLsb' 5 3 == 0b111#3

/-- The operating modes the spec distinguishes (R6, R131). -/
inductive Mode where
  | long64
  /-- 32-bit protected or compatibility mode: documented, not admitted (D1). -/
  | prot32
  | virtual8086
  | realAddress
  deriving DecidableEq, Repr

/-- `MODE` (R30). -/
def State.mode (s : State) : Mode :=
  if !s.cr0PE then .realAddress
  else if s.rflagsVM then .virtual8086
  else if s.eferLMA && s.csL then .long64
  else .prot32

/-- `LA_BITS`: 57 with CR4.LA57, else 48 (R30). -/
def State.laBits (s : State) : Nat := if s.cr4LA57 then 57 else 48

/-- `MAXVL`: 512 with AVX512F, else 256 (decision D2). -/
def State.maxvl (s : State) : Nat := if s.cfg.hasAvx512f then 512 else 256

/-- The three enabling bits of #AC (R137). -/
def State.alignmentChecked (s : State) : Bool := s.cr0AM && s.rflagsAC && s.cpl == 3#2

end Sys2Proof.Machine
end

