-- ==== Sys2Proof/Machine/Permute.lean ====
section
/-! DEFINITION. The vector computation of spec/40_vpermps.md R103 to R108 on plain values. A vector is the 512-bit storage
of a register; a form of length `VL` uses its bits `VL-1:0`. -/

namespace Sys2Proof

/-- `KL`: the number of elements (R8, R11). -/
def VecLen.kl : VecLen → Nat
  | .vl256 => 8
  | .vl512 => 16

/-- `VL` in bits. -/
def VecLen.bits (vl : VecLen) : Nat := 32 * vl.kl

/-- The width `w` of an index field (R104). -/
def VecLen.idxBits : VecLen → Nat
  | .vl256 => 3
  | .vl512 => 4

/-- `elem32(X, j) = X[32*j+31 : 32*j]` (spec/00_scope.md R9). -/
def elem32 (x : Vec) (j : Nat) : Elem := x.extractLsb' (32 * j) 32

/-- The vector whose elements `0 .. n-1` are `f 0 .. f (n-1)`, zero above. -/
def ofElems (f : Nat → Elem) : Nat → Vec
  | 0 => 0#512
  | n + 1 => ofElems f n ||| (f n).setWidth 512 <<< (32 * n)

/-- `Index(KL, IDX, j) = IDX[32*j + w - 1 : 32*j]` (R104). -/
def indexOf (vl : VecLen) (idx : Vec) (j : Nat) : Nat := (idx.extractLsb' (32 * j) vl.idxBits).toNat

/-- `Permute(KL, IDX, TBL)` (R103). -/
def permute (vl : VecLen) (idx tbl : Vec) : Vec :=
  ofElems (fun j => elem32 tbl (indexOf vl idx j)) vl.kl

/-- The table of a broadcast operand: every element is `t` (R105). -/
def broadcast (vl : VecLen) (t : Elem) : Vec := ofElems (fun _ => t) vl.kl

/-- The opmask number of a writemask register. -/
def OpmaskReg.index : OpmaskReg → Fin 8
  | .k1 => 1
  | .k2 => 2
  | .k3 => 3
  | .k4 => 4
  | .k5 => 5
  | .k6 => 6
  | .k7 => 7

/-- `ApplyMask(KL, TMP, OLD, aaa, z)` (R106 to R108), the opmask registers given. -/
def applyMask (vl : VecLen) (tmp old : Vec) (msk : Masking) (k : Vector Opmask 8) : Vec :=
  ofElems (fun j =>
    match msk with
    | .noWritemask => elem32 tmp j
    | .merging r => if k[r.index].getLsbD j then elem32 tmp j else elem32 old j
    | .zeroing r => if k[r.index].getLsbD j then elem32 tmp j else 0#32) vl.kl

/-- A little-endian value from its bytes, lowest address first (spec/20_memory.md R40). -/
def leValue : List Byte → Vec
  | [] => 0#512
  | b :: bs => b.setWidth 512 ||| leValue bs <<< 8

end Sys2Proof
end

