-- ==== Sys2Proof/Machine/Ops.lean ====
section
/-! DEFINITION. The named operations over registers and memory, and raising an exception. -/

namespace Sys2Proof.Machine

/-! ## Stopping (spec/60_exceptions.md R140, R142) -/

/-- Why an instruction does not complete. -/
inductive Stop where
  | fault (f : Fault)
  | refuse (r : Refusal)
  deriving DecidableEq, Repr

def Stop.outcome : Stop → Host.Outcome State Fault Refusal
  | .fault f => .fault f
  | .refuse r => .refused r

/-- TAKING AN EXCEPTION. R140: nothing is written, the outcome is terminal; R142: the saved instruction pointer is the
`rip` of the faulting instruction. Delivery through a handler is outside the spec (R5, R144, D9), and so is a return
(R145). -/
def raise (f : Quad → Fault) (s : State) : Stop := .fault (f s.rip)

/-- The exception's vector number (R130). -/
def Fault.vector : Fault → Nat
  | .ud _ => 6
  | .nm _ => 7
  | .ss0 _ => 12
  | .gp0 _ => 13
  | .pf _ _ _ => 14
  | .ac0 _ => 17

/-- The error code, where the exception has one (R130, R142). -/
def Fault.errorCode : Fault → Option (BitVec 32)
  | .ud _ => none
  | .nm _ => none
  | .ss0 _ => some 0#32
  | .gp0 _ => some 0#32
  | .pf _ code _ => some code
  | .ac0 _ => some 0#32

/-- The address CR2 receives (R134). -/
def Fault.cr2 : Fault → Option Quad
  | .pf _ _ la => some la
  | .ud _ => none
  | .nm _ => none
  | .ss0 _ => none
  | .gp0 _ => none
  | .ac0 _ => none

/-- The saved instruction pointer (R142). -/
def Fault.savedRip : Fault → Quad
  | .ud r => r
  | .nm r => r
  | .ss0 r => r
  | .gp0 r => r
  | .pf r _ _ => r
  | .ac0 r => r

/-! ## Open choices (spec/93_implementation_defined.md "any value") -/

/-- One of the outcomes the spec admits, `first` or one of `others`, by a number nothing is known of. -/
def pickFrom {α : Type} (n : Nat) (first : α) (others : List α) : α :=
  match others with
  | [] => first
  | _ :: _ => (first :: others).getD (n % (others.length + 1)) first

/-! ## Registers -/

/-- `V[n]` (spec/10_state.md R21). -/
def State.readV (s : State) (n : BitVec 5) : Vec := s.v[n.toNat]'n.isLt

/-- Bits `MAXVL-1:0` of a value, zero-extended. -/
def State.truncV (s : State) (x : Vec) : Vec := (x.setWidth s.maxvl).setWidth 512

/-- `V[n] <- zext_MAXVL(x)` (spec/40_vpermps.md R110): all `MAXVL` bits are written. -/
def State.writeV (s : State) (n : BitVec 5) (x : Vec) : State :=
  { s with v := s.v.set n.toNat (s.truncV x) n.isLt }

/-- `G[n]` (spec/10_state.md R26). -/
def State.readG (s : State) (n : GReg) : Quad := s.g[n.toNat]'n.isLt

/-- Completion: `rip <- rip + len` modulo 2^64 (spec/40_vpermps.md R116); the next choice is a fresh one. -/
def State.retire (s : State) (len : Nat) : State :=
  { s with rip := s.rip + BitVec.ofNat 64 len, freeIx := s.freeIx + 1 }

/-! ## Addresses and translation (spec/20_memory.md R46, R47) -/

/-- Bits 63:`LA_BITS` equal bit `LA_BITS-1` (R46). -/
def State.canonical (s : State) (a : Quad) : Bool :=
  let high := a.toNat >>> (s.laBits - 1)
  high == 0 || high == 2 ^ (65 - s.laBits) - 1

/-- What `Translate` answers for one byte, the canonical check apart. -/
inductive Verdict where
  | ok (b : Byte)
  | pageFault (code : BitVec 32) (la : Option Quad)
  | gp0
  | ss0
  | device
  deriving DecidableEq, Repr

def Levels.has : Levels → BitVec 2 → Bool
  | .every, _ => true
  | .user, cpl => cpl == 3#2
  | .supervisor, cpl => cpl != 3#2

/-- The region answers this access to this address at this privilege level. -/
def Region.applies (r : Region) (acc : Access) (cpl : BitVec 2) (a : Quad) : Bool :=
  decide (r.base ≤ a.toNat) && decide (a.toNat < r.base + r.size) && (r.access == none || r.access == some acc)
    && r.levels.has cpl

/-- The page-fault code: W/R bit 1 = 0, U/S bit 2 = (CPL = 3), I/D bit 4 (R134, R147). P, bit 0, is that of the given code.
The spec gives bit 3 and the bits from 5 on no value: they are those of the given code (assumption 10). -/
def State.pfCode (s : State) (acc : Access) (code : BitVec 32) : BitVec 32 :=
  (code &&& ~~~0x16#32) ||| (BitVec.ofBool (s.cpl == 3#2)).setWidth 32 <<< 2
    ||| (BitVec.ofBool (acc == .fetch)).setWidth 32 <<< 4

/-- The byte at a location. One that is not mapped is a page fault with P = 0 (R47); the code bits the spec does not give are
0 there, the model's choice (assumption 10). -/
def State.locate (s : State) (acc : Access) (loc : Quad) : Verdict :=
  match s.mem.get loc.toNat with
  | some b => .ok b
  | none => .pageFault (s.pfCode acc 0#32) none

/-- `Translate(a, 1, access)` (R47): the answer of the first region that applies, else the identity on mapped bytes. A
region answers before memory is looked at, so also for a byte that is not mapped (the model's choice, assumption 7). -/
def State.translate (s : State) (acc : Access) (a : Quad) : Verdict :=
  match s.regions.find? fun r => r.applies acc s.cpl a with
  | none => s.locate acc a
  | some r =>
    match r.answer with
    | .location loc => s.locate acc (loc + (a - BitVec.ofNat 64 r.base))
    | .pageFault code la => .pageFault (s.pfCode acc code) la
    | .gp0 => .gp0
    | .ss0 => .ss0
    | .device => .device

/-! ## The read primitive (spec/20_memory.md R40, R43, R53) -/

/-- The linear addresses `la .. la+n-1`, modulo 2^64. -/
def addrs (la : Quad) (n : Nat) : List Quad := (List.range n).map fun i => la + BitVec.ofNat 64 i

/-- The 4096-byte page of an address, the smallest unit a translation can fail for (assumption 8). -/
def pageOf (a : Quad) : Nat := a.toNat / 4096

/-- The addresses CR2 may receive when byte `f` of the operand `as` fails (R134, U16): the address `Translate` gives, if it
lies in the operand, else any operand address in the page of `f`. -/
def cr2Candidates (as : List Quad) (f : Quad) (la : Option Quad) : List Quad :=
  let inPage := as.filter fun a => pageOf a == pageOf f
  match la with
  | some l => if as.contains l then [l] else inPage
  | none => inPage

/-- The pairs (CR2, code) a page fault of this read may record. Empty when no byte fails. -/
def State.pageFaults (s : State) (as : List Quad) : List (Quad × BitVec 32) :=
  as.flatMap fun f =>
    match s.translate .read f with
    | .pageFault code la => (cr2Candidates as f la).map fun a => (a, code)
    | .ok _ => []
    | .gp0 => []
    | .ss0 => []
    | .device => []

/-- Of #GP(0) and #SS(0) those that `Translate` answers for a byte of the operand. -/
def State.addressFaults (s : State) (as : List Quad) : List (Quad → Fault) :=
  (if as.any fun a => s.translate .read a == .gp0 then [.gp0] else [])
    ++ if as.any fun a => s.translate .read a == .ss0 then [.ss0] else []

/-- The byte a translated address holds. -/
def State.byteAt (s : State) (a : Quad) : Byte :=
  match s.translate .read a with
  | .ok b => b
  | .pageFault _ _ => 0#8
  | .gp0 => 0#8
  | .ss0 => 0#8
  | .device => 0#8

/-- The segment an access goes through (spec/30_encoding.md R74); `ds` stands for CS, DS and ES. -/
inductive Segment where
  | fs | gs | ss | ds
  deriving DecidableEq, Repr

/-- #SS(0) through SS, else #GP(0) (spec/60_exceptions.md R135, R136). -/
def Segment.addressFault : Segment → Quad → Fault
  | .ss => .ss0
  | .fs => .gp0
  | .gs => .gp0
  | .ds => .gp0

/-- `MemRead(la, n)`, the data read of operand 3. Order of R141: canonical addresses, #GP(0) and #SS(0) of `Translate`, then
page faults, with #AC admitted beside them when `mayCheck` says the read is subject to R137. R141 places #AC relative to #PF
only: that it comes after the others is the model's choice (assumption 9). Device memory is refused (R45, assumption 16). -/
def State.memRead (s : State) (seg : Segment) (la : Quad) (n : Nat) (mayCheck : Bool) : Except Stop Vec :=
  let as := addrs la n
  if !as.all s.canonical then .error (raise seg.addressFault s)
  else if as.any (fun a => s.translate .read a == .device) then .error (.refuse .deviceMemory)
  else
    match s.addressFaults as with
    | f :: fs => .error (raise (pickFrom (Config.segmentChoice s.freeIx) f fs) s)
    | [] =>
      let ac : Except Stop Vec := .error (raise .ac0 s)
      let plain : Except Stop Vec :=
        match s.pageFaults as with
        | [] => .ok (leValue (as.map s.byteAt))
        | p :: ps =>
          let q := pickFrom (Config.cr2Choice s.freeIx) p ps
          .error (raise (fun r => .pf r q.2 q.1) s)
      if mayCheck then pickFrom (Config.acChoice s.freeIx) plain [ac] else plain

end Sys2Proof.Machine
end

