-- ==== Sys2Proof/Machine/Operands.lean ====
section
/-! DEFINITION. Every operand form: register numbers, effective and linear addresses (spec/30_encoding.md R71 to R75), and
the source table (spec/40_vpermps.md R100, R105). -/

namespace Sys2Proof

/-- The vector length of a form. -/
def Form.vl : Form → VecLen
  | .vex256 => .vl256
  | .evex256 => .vl256
  | .evex512 => .vl512

/-- Operand 3 of the VEX form among the registers 0..31 (spec/10_state.md R22). -/
def VexTable.widen : VexTable → EvexTable
  | .reg n => .reg (n.setWidth 5)
  | .mem m => .mem m

/-- `N`, the scale of an 8-bit displacement (R75). -/
def Form.dispScale (f : Form) (broadcast : Bool) : BitVec 64 :=
  match f with
  | .vex256 => 1#64
  | .evex256 => if broadcast then 4#64 else 32#64
  | .evex512 => if broadcast then 4#64 else 64#64

/-- `disp` of R74: sign-extended, an 8-bit one scaled by `N`. -/
def Disp.value (n : BitVec 64) : Disp → Quad
  | .none => 0#64
  | .disp8 v => v.signExtend 64 * n
  | .disp32 v => v.signExtend 64

/-- The register whose number decides between SS and DS (R74). -/
def MemRef.baseReg : MemRef → Option GReg
  | .ripRel _ => none
  | .base b _ => some b
  | .sib b _ _ _ => some b
  | .sibNoBase _ _ _ => none

/-- The segment a prefix names; `none` for the address-size prefix. -/
def LegacyPrefix.segment : LegacyPrefix → Option Machine.Segment
  | .es => some .ds
  | .cs => some .ds
  | .ss => some .ss
  | .ds => some .ds
  | .fs => some .fs
  | .gs => some .gs
  | .addr32 => none

end Sys2Proof

namespace Sys2Proof.Machine

/-- `seg` of R74: the last segment prefix wins (R61); without one, SS for the base registers rsp and rbp, else DS. -/
def segmentOf (ps : List LegacyPrefix) (m : MemRef) : Segment :=
  match (ps.filterMap LegacyPrefix.segment).getLast? with
  | some seg => seg
  | none => if m.baseReg = some 4#4 ∨ m.baseReg = some 5#4 then .ss else .ds

/-- A 67 prefix is present (R61). -/
def addr32 (ps : List LegacyPrefix) : Bool := ps.contains .addr32

/-- The low 32 bits, zero-extended, under a 67 prefix (R74). -/
def narrow (a32 : Bool) (x : Quad) : Quad := if a32 then (x.setWidth 32).setWidth 64 else x

/-- `idxv` of R74: index number 0100 is no index. -/
def State.indexValue (s : State) (a32 : Bool) (index : GReg) (scale : BitVec 2) : Quad :=
  if index = 4#4 then 0#64 else narrow a32 (s.readG index) <<< scale.toNat

/-- `ea` of R74; `n` is the displacement scale and `next` the address of the next instruction. -/
def State.effectiveAddress (s : State) (a32 : Bool) (n : BitVec 64) (next : Quad) (m : MemRef) : Quad :=
  narrow a32 <|
    match m with
    | .ripRel disp => narrow a32 next + disp.signExtend 64
    | .base b disp => narrow a32 (s.readG b) + disp.value n
    | .sib b index scale disp => narrow a32 (s.readG b) + s.indexValue a32 index scale + disp.value n
    | .sibNoBase index scale disp => s.indexValue a32 index scale + disp.signExtend 64

/-- `FS_BASE`, `GS_BASE` or zero (R74, spec/10_state.md R32). -/
def State.segmentBase (s : State) : Segment → Quad
  | .fs => s.fsBase
  | .gs => s.gsBase
  | .ss => 0#64
  | .ds => 0#64

/-- `LA` of R74, for an instruction of form `f` and length `len`. -/
def State.linearAddress (s : State) (f : Form) (ps : List LegacyPrefix) (broadcast : Bool) (len : Nat) (m : MemRef) : Quad :=
  s.effectiveAddress (addr32 ps) (f.dispScale broadcast) (s.rip + BitVec.ofNat 64 len) m
    + s.segmentBase (segmentOf ps m)

/-- The bytes of a full memory operand (spec/20_memory.md R43). -/
def VecLen.bytes (vl : VecLen) : Nat := 4 * vl.kl

/-- A broadcast read the alignment check of R137 may fault. -/
def State.mayCheckAlignment (s : State) (la : Quad) : Bool :=
  s.cfg.acCheck && s.alignmentChecked && la.toNat % 4 != 0

/-- `TBL` of R100 and `SourceTable(KL)` of R105. -/
def State.sourceTable (s : State) (f : Form) (ps : List LegacyPrefix) (len : Nat) : EvexTable → Except Stop Vec
  | .reg n => .ok (s.readV n)
  | .mem m => s.memRead (segmentOf ps m) (s.linearAddress f ps false len m) (VecLen.bytes f.vl) false
  | .bcst m =>
    let la := s.linearAddress f ps true len m
    match s.memRead (segmentOf ps m) la 4 (s.mayCheckAlignment la) with
    | .ok t => .ok (broadcast f.vl (elem32 t 0))
    | .error e => .error e

end Sys2Proof.Machine
end

