-- ==== Sys2Proof/Machine/Vpermps.lean ====
section
/-! DEFINITION. The meaning of VPERMPS in its three forms (spec/40_vpermps.md R100 to R102). -/

namespace Sys2Proof.Machine

/-- The CPUID feature flags of a form are reported (spec/00_scope.md R2, spec/60_exceptions.md R131 row 2). -/
def State.hasForm (s : State) : Form → Bool
  | .vex256 => s.cfg.hasAvx2
  | .evex256 => s.cfg.hasAvx512f && s.cfg.hasAvx512vl
  | .evex512 => s.cfg.hasAvx512f

/-- The operating system has enabled the registers of a form (R131 rows 3 to 5). -/
def State.osEnabled (s : State) : Form → Bool
  | .vex256 => s.osEnabledAvx
  | .evex256 => s.osEnabledAvx512
  | .evex512 => s.osEnabledAvx512

/-- #UD by the state (R131 rows 2 to 6): a feature flag or the operating system's enabling is missing, or the mode is
real-address or virtual-8086 mode. -/
def State.disabled (s : State) (f : Form) : Bool :=
  s.mode == .realAddress || s.mode == .virtual8086 || !s.hasForm f || !s.osEnabled f

/-- What stops a form before its operands are looked at: 32-bit mode (D1), #UD (R131 rows 2 to 6), then #NM (R133). -/
def State.enablingStop (s : State) (f : Form) : Option Stop :=
  if s.mode = .prot32 then some (.refuse .prot32Mode)
  else if s.disabled f then some (raise .ud s)
  else if s.cr0TS then some (raise .nm s)
  else none

/-- The register result of R100 to R102 from the sampled source values (R111). -/
def State.result (s : State) (f : Form) (d s1 : BitVec 5) (msk : Masking) (tbl : Vec) : Vec :=
  applyMask f.vl (permute f.vl (s.readV s1) tbl) (s.readV d) msk s.k

/-- One VPERMPS in the order of R115: enabling checks, the table with its faults, the computation, the single write of
the destination, `rip`. -/
def vpermps (f : Form) (ps : List LegacyPrefix) (d s1 : BitVec 5) (msk : Masking) (tbl : EvexTable) (len : Nat)
    (s : State) : Host.Outcome State Fault Refusal :=
  match s.enablingStop f with
  | some stop => stop.outcome
  | none =>
    match s.sourceTable f ps len tbl with
    | .error stop => stop.outcome
    | .ok t => .next ((s.writeV d (s.result f d s1 msk t)).retire len)

/-- `VPERMPS ymm1, ymm2, ymm3/m256` (R100). -/
def execVpermpsVex256 (ps : List LegacyPrefix) (d s1 : BitVec 4) (tbl : VexTable) (s : State) :
    Host.Outcome State Fault Refusal :=
  vpermps .vex256 ps (d.setWidth 5) (s1.setWidth 5) .noWritemask tbl.widen (Instr.vpermpsVex256 ps d s1 tbl).len s

/-- `VPERMPS ymm1 {k1}{z}, ymm2, ymm3/m256/m32bcst` (R101). -/
def execVpermpsEvex256 (ps : List LegacyPrefix) (d s1 : BitVec 5) (msk : Masking) (tbl : EvexTable) (s : State) :
    Host.Outcome State Fault Refusal :=
  vpermps .evex256 ps d s1 msk tbl (Instr.vpermpsEvex256 ps d s1 msk tbl).len s

/-- `VPERMPS zmm1 {k1}{z}, zmm2, zmm3/m512/m32bcst` (R102). -/
def execVpermpsEvex512 (ps : List LegacyPrefix) (d s1 : BitVec 5) (msk : Masking) (tbl : EvexTable) (s : State) :
    Host.Outcome State Fault Refusal :=
  vpermps .evex512 ps d s1 msk tbl (Instr.vpermpsEvex512 ps d s1 msk tbl).len s

end Sys2Proof.Machine
end

