-- ==== Sys2Proof/Machine/Dispatch.lean ====
section
/-! DEFINITION. One arm per constructor of `Instr`. -/

namespace Sys2Proof.Machine

def exec (i : Instr) (s : State) : Host.Outcome State Fault Refusal :=
  match i with
  | .vpermpsVex256 ps d s1 tbl => Sys2Proof.Machine.execVpermpsVex256 ps d s1 tbl s
  | .vpermpsEvex256 ps d s1 msk tbl => Sys2Proof.Machine.execVpermpsEvex256 ps d s1 msk tbl s
  | .vpermpsEvex512 ps d s1 msk tbl => Sys2Proof.Machine.execVpermpsEvex512 ps d s1 msk tbl s

end Sys2Proof.Machine
end

