-- ==== Sys2Proof/WellFormed.lean ====
section
/-! DEFINITION. Which terms of `Instr` an encoding can stand for. -/

namespace Sys2Proof

/-- The low three bits of a register number, the part the ModRM or SIB byte holds. -/
def GReg.low3 (b : GReg) : BitVec 3 := b.setWidth 3

/-- R70, R74: without an SIB byte the r/m field 100 is taken (it announces one), and with `mod` = 00 the field 101 is
taken (it means a 32-bit displacement without this base). -/
def MemRef.wf : MemRef → Bool
  | .ripRel _ => true
  | .base b disp => b.low3 != 4#3 && (disp != .none || b.low3 != 5#3)
  | .sib b _ _ disp => disp != .none || b.low3 != 5#3
  | .sibNoBase _ _ _ => true

def VexTable.wf : VexTable → Bool
  | .reg _ => true
  | .mem m => m.wf

def EvexTable.wf : EvexTable → Bool
  | .reg _ => true
  | .mem m => m.wf
  | .bcst m => m.wf

/-- Operand 3 has an encoding. -/
def Instr.encodable : Instr → Bool
  | .vpermpsVex256 _ _ _ tbl => tbl.wf
  | .vpermpsEvex256 _ _ _ _ tbl => tbl.wf
  | .vpermpsEvex512 _ _ _ _ tbl => tbl.wf

/-- The instruction has an encoding of at most 15 bytes (R83). -/
def Instr.wf (i : Instr) : Bool := i.encodable && decide (i.len ≤ maxLen)

end Sys2Proof
end

