-- ==== Sys2Proof/Decode.lean ====
section
/-! DEFINITION. The decoder of spec/30_encoding.md R97 (64-bit mode), total on any bytes, and the encoder, both from the
layouts of R61 to R81. -/

namespace Sys2Proof

/-! ## Fields -/

/-- Bit `n` of a byte. -/
def bitOf (b : Byte) (n : Nat) : Bool := b.getLsbD n

/-- Bits `[lo + w - 1 : lo]` of a byte. -/
def field (b : Byte) (lo w : Nat) : BitVec w := b.extractLsb' lo w

/-- One true bit `x` above `n` low bits: `x ++ v` of R71 to R74. -/
def extend (x : Bool) {n : Nat} (v : BitVec n) : BitVec (1 + n) := BitVec.ofBool x ++ v

/-- A 32-bit field of the instruction, least significant byte first (spec/20_memory.md R40). -/
def le32 (b0 b1 b2 b3 : Byte) : BitVec 32 := b3 ++ b2 ++ b1 ++ b0

/-! ## Legacy prefixes (R61) -/

/-- What a byte before the VEX or EVEX prefix is. -/
inductive PrefixClass where
  | accepted (p : LegacyPrefix)
  /-- `66`, `F2`, `F3`, `F0`, `40`..`4F`: #UD. -/
  | illegal
  | other
  deriving DecidableEq, Repr

def classify (b : Byte) : PrefixClass :=
  if b = 0x26#8 then .accepted .es
  else if b = 0x2E#8 then .accepted .cs
  else if b = 0x36#8 then .accepted .ss
  else if b = 0x3E#8 then .accepted .ds
  else if b = 0x64#8 then .accepted .fs
  else if b = 0x65#8 then .accepted .gs
  else if b = 0x67#8 then .accepted .addr32
  else if b = 0x66#8 ∨ b = 0xF2#8 ∨ b = 0xF3#8 ∨ b = 0xF0#8 ∨ field b 4 4 = 0x4#4 then .illegal
  else .other

/-- The prefixes in front of an encoding: the accepted ones in order, how many bytes in all, and whether an illegal one
is among them. -/
structure Prefixes where
  accepted : List LegacyPrefix
  count : Nat
  bad : Bool
  deriving DecidableEq, Repr

/-- The prefix loop of R97: the prefixes and the bytes from the first other byte on. -/
def scanPrefixes : List Byte → Prefixes × List Byte
  | [] => (⟨[], 0, false⟩, [])
  | b :: bs =>
    match classify b with
    | .accepted p => let r := scanPrefixes bs; (⟨p :: r.1.accepted, r.1.count + 1, r.1.bad⟩, r.2)
    | .illegal => let r := scanPrefixes bs; (⟨r.1.accepted, r.1.count + 1, true⟩, r.2)
    | .other => (⟨[], 0, false⟩, b :: bs)

/-! ## ModRM, SIB, displacement (R70, R74, R81) -/

/-- Operand 3 before the form is known: the r/m field of a register, or a memory operand. -/
inductive RmOperand where
  | reg (rm : BitVec 3)
  | mem (m : MemRef)
  deriving DecidableEq, Repr

/-- Bytes after the ModRM byte. -/
def RmOperand.len : RmOperand → Nat
  | .reg _ => 0
  | .mem m => m.len

def readDisp32 : List Byte → Option (BitVec 32)
  | b0 :: b1 :: b2 :: b3 :: _ => some (le32 b0 b1 b2 b3)
  | _ => none

def readDisp (mod : BitVec 2) (bs : List Byte) : Option Disp :=
  if mod = 0#2 then some .none
  else if mod = 1#2 then
    match bs with
    | b :: _ => some (.disp8 b)
    | [] => none
  else (readDisp32 bs).map .disp32

/-- A memory operand, from `mod` and `rm` and the bytes after ModRM; `none` when the bytes end too early. -/
def readMem (xx bx : Bool) (mod : BitVec 2) (rm : BitVec 3) (bs : List Byte) : Option MemRef :=
  if rm = 4#3 then
    match bs with
    | [] => none
    | sib :: rest =>
      let index := extend xx (field sib 3 3)
      if mod = 0#2 ∧ field sib 0 3 = 5#3 then (readDisp32 rest).map (.sibNoBase index (field sib 6 2))
      else (readDisp mod rest).map (.sib (extend bx (field sib 0 3)) index (field sib 6 2))
  else if mod = 0#2 ∧ rm = 5#3 then (readDisp32 bs).map .ripRel
  else (readDisp mod bs).map (.base (extend bx rm))

/-- The reg field and operand 3, from the ModRM byte on. -/
def readModRM (xx bx : Bool) : List Byte → Option (BitVec 3 × RmOperand)
  | [] => none
  | modrm :: rest =>
    let mod := field modrm 6 2
    let rm := field modrm 0 3
    if mod = 3#2 then some (field modrm 3 3, .reg rm)
    else (readMem xx bx mod rm rest).map fun m => (field modrm 3 3, .mem m)

/-! ## Operand fields of the forms (R71 to R73, R76 to R80) -/

def vexTable (bx : Bool) : RmOperand → VexTable
  | .reg rm => .reg (extend bx rm)
  | .mem m => .mem m

/-- R73, R80; `none` for EVEX.b = 1 with a register (R89). -/
def evexTable (xx bx b : Bool) : RmOperand → Option EvexTable
  | .reg rm => if b then none else some (.reg (extend xx (extend bx rm)))
  | .mem m => if b then some (.bcst m) else some (.mem m)

/-- The opmask register a nonzero `aaa` names. -/
def opmaskOf (aaa : BitVec 3) : Option OpmaskReg :=
  match aaa.toNat with
  | 1 => some .k1
  | 2 => some .k2
  | 3 => some .k3
  | 4 => some .k4
  | 5 => some .k5
  | 6 => some .k6
  | 7 => some .k7
  | _ => none

/-- R77 to R79; `none` for zeroing without a writemask (R90). -/
def maskingOf (z : Bool) (aaa : BitVec 3) : Option Masking :=
  match opmaskOf aaa with
  | some k => some (if z then .zeroing k else .merging k)
  | none => if z then none else some .noWritemask

/-! ## The decoder (R97) -/

/-- Why the bytes from `rip` on give no instruction. They may end (at the first byte that cannot be fetched) before an
instruction does. -/
inductive Reject where
  /-- Illegal by R61, R86 to R91, and at most 15 bytes long: #UD. -/
  | illegal
  /-- Legal by R61, R86 to R91 but longer than 15 bytes: #GP(0) (R83), unless the state makes the form illegal as well. -/
  | tooLong (f : Form)
  /-- Both (90_conflicts.md C7): #UD or #GP(0). -/
  | illegalTooLong
  /-- The bytes end inside the instruction: a fault of the fetch, before any decode outcome (R141 item 1, R147). -/
  | unfinished
  /-- Another instruction or none (R92): out of scope. -/
  | notVpermps
  deriving DecidableEq, Repr

/-- What the decoder answers. -/
inductive Decoded where
  | instr (i : Instr)
  | reject (why : Reject)
  deriving DecidableEq, Repr

/-- R83 for a legal encoding. -/
def settle (i : Instr) : Decoded := if i.len ≤ maxLen then .instr i else .reject (.tooLong i.form)

/-- R83 for an illegal encoding of `n` bytes. -/
def settleIllegal (n : Nat) : Decoded := .reject (if n ≤ maxLen then .illegal else .illegalTooLong)

/-- R97, branch `C4`: the bytes after the escape byte. -/
def decodeVex (p : Prefixes) : List Byte → Decoded
  | b1 :: b2 :: op :: rest =>
    if field b1 0 5 ≠ 0b00010#5 ∨ field b2 0 2 ≠ 0b01#2 ∨ op ≠ 0x16#8 then .reject .notVpermps
    else
      let xx := !bitOf b1 6
      let bx := !bitOf b1 5
      let bad := p.bad || !bitOf b2 2 || bitOf b2 7
      match readModRM xx bx rest with
      | none => .reject .unfinished
      | some (reg, rm) =>
        if bad then settleIllegal (p.count + 3 + 1 + 1 + rm.len)
        else settle (.vpermpsVex256 p.accepted (extend (!bitOf b1 7) reg) (~~~field b2 3 4) (vexTable bx rm))
  | _ => .reject .unfinished

/-- R97, branch `62`: the bytes after the escape byte. -/
def decodeEvex (p : Prefixes) : List Byte → Decoded
  | p0 :: p1 :: p2 :: op :: rest =>
    if field p0 0 2 ≠ 0b10#2 ∨ field p1 0 2 ≠ 0b01#2 ∨ op ≠ 0x16#8 ∨ bitOf p1 7 then .reject .notVpermps
    else
      let xx := !bitOf p0 6
      let bx := !bitOf p0 5
      let ll := field p2 5 2
      let masking := maskingOf (bitOf p2 7) (field p2 0 3)
      let bad := p.bad || field p0 2 2 != 0#2 || !bitOf p1 2 || (ll != 1#2 && ll != 2#2) || masking.isNone
      match readModRM xx bx rest with
      | none => .reject .unfinished
      | some (reg, rm) =>
        match bad, masking, evexTable xx bx (bitOf p2 4) rm with
        | false, some msk, some tbl =>
          let d := extend (!bitOf p0 4) (extend (!bitOf p0 7) reg)
          let s1 := extend (!bitOf p2 3) (~~~field p1 3 4)
          if ll = 1#2 then settle (.vpermpsEvex256 p.accepted d s1 msk tbl)
          else settle (.vpermpsEvex512 p.accepted d s1 msk tbl)
        | _, _, _ => settleIllegal (p.count + 4 + 1 + 1 + rm.len)
  | _ => .reject .unfinished

/-- `Decode(bytes at rip)` of R97. -/
def decode (bs : List Byte) : Decoded :=
  let r := scanPrefixes bs
  match r.2 with
  | [] => .reject .unfinished
  | e :: rest =>
    if e = 0xC4#8 then decodeVex r.1 rest
    else if e = 0x62#8 then decodeEvex r.1 rest
    else .reject .notVpermps

/-! ## The encoder. A bit the decoder ignores is written as 1, the complement of a zero extension (assumption 20). -/

def LegacyPrefix.byte : LegacyPrefix → Byte
  | .es => 0x26#8
  | .cs => 0x2E#8
  | .ss => 0x36#8
  | .ds => 0x3E#8
  | .fs => 0x64#8
  | .gs => 0x65#8
  | .addr32 => 0x67#8

def le32Bytes (v : BitVec 32) : List Byte :=
  [v.extractLsb' 0 8, v.extractLsb' 8 8, v.extractLsb' 16 8, v.extractLsb' 24 8]

def Disp.bytes : Disp → List Byte
  | .none => []
  | .disp8 v => [v]
  | .disp32 v => le32Bytes v

def Disp.mod : Disp → BitVec 2
  | .none => 0#2
  | .disp8 _ => 1#2
  | .disp32 _ => 2#2

/-- Bit 3 of a general register number. -/
def GReg.hi (b : GReg) : Bool := b.getLsbD 3

/-- The fields operand 3 fills: true extension bits, `mod`, `rm`, and the bytes after ModRM. -/
structure RmFields where
  x : Bool
  b : Bool
  mod : BitVec 2
  rm : BitVec 3
  tail : List Byte
  deriving DecidableEq, Repr

def sibByte (scale : BitVec 2) (index base : BitVec 3) : Byte := scale ++ index ++ base

def MemRef.fields : MemRef → RmFields
  | .ripRel disp => ⟨false, false, 0#2, 5#3, le32Bytes disp⟩
  | .base b disp => ⟨false, b.hi, disp.mod, b.low3, disp.bytes⟩
  | .sib b index scale disp => ⟨index.hi, b.hi, disp.mod, 4#3, sibByte scale index.low3 b.low3 :: disp.bytes⟩
  | .sibNoBase index scale disp => ⟨index.hi, false, 0#2, 4#3, sibByte scale index.low3 5#3 :: le32Bytes disp⟩

def VexTable.fields : VexTable → RmFields
  | .reg n => ⟨false, n.getLsbD 3, 3#2, n.setWidth 3, []⟩
  | .mem m => m.fields

def EvexTable.fields : EvexTable → RmFields
  | .reg n => ⟨n.getLsbD 4, n.getLsbD 3, 3#2, n.setWidth 3, []⟩
  | .mem m => m.fields
  | .bcst m => m.fields

/-- EVEX.b. -/
def EvexTable.bBit : EvexTable → Bool
  | .reg _ => false
  | .mem _ => false
  | .bcst _ => true

def OpmaskReg.num : OpmaskReg → BitVec 3
  | .k1 => 1#3
  | .k2 => 2#3
  | .k3 => 3#3
  | .k4 => 4#3
  | .k5 => 5#3
  | .k6 => 6#3
  | .k7 => 7#3

/-- EVEX.z. -/
def Masking.zBit : Masking → Bool
  | .noWritemask => false
  | .merging _ => false
  | .zeroing _ => true

/-- EVEX.aaa. -/
def Masking.aaa : Masking → BitVec 3
  | .noWritemask => 0#3
  | .merging k => k.num
  | .zeroing k => k.num

/-- A stored complement bit. -/
def stored (x : Bool) : BitVec 1 := BitVec.ofBool (!x)

def modrmByte (mod : BitVec 2) (reg rm : BitVec 3) : Byte := mod ++ reg ++ rm

/-- R63, R64: `11000100 RXB00010 0vvvv101 00010110 ddgggnnn`. -/
def encodeVex (d s1 : BitVec 4) (f : RmFields) : List Byte :=
  [0xC4#8, stored (d.getLsbD 3) ++ stored f.x ++ stored f.b ++ 0b00010#5, 0#1 ++ ~~~s1 ++ 0b101#3, 0x16#8,
    modrmByte f.mod (d.setWidth 3) f.rm] ++ f.tail

/-- R67, R68: `01100010 RXBQ0010 0vvvv101 zLLbVaaa 00010110 ddgggnnn`. -/
def encodeEvex (ll : BitVec 2) (d s1 : BitVec 5) (msk : Masking) (tbl : EvexTable) : List Byte :=
  let f := tbl.fields
  [0x62#8, stored (d.getLsbD 3) ++ stored f.x ++ stored f.b ++ stored (d.getLsbD 4) ++ 0b0010#4,
    0#1 ++ ~~~s1.setWidth 4 ++ 0b101#3,
    BitVec.ofBool msk.zBit ++ ll ++ BitVec.ofBool tbl.bBit ++ stored (s1.getLsbD 4) ++ msk.aaa, 0x16#8,
    modrmByte f.mod (d.setWidth 3) f.rm] ++ f.tail

/-- The bytes of an instruction in address order. -/
def encode : Instr → List Byte
  | .vpermpsVex256 ps d s1 tbl => ps.map LegacyPrefix.byte ++ encodeVex d s1 tbl.fields
  | .vpermpsEvex256 ps d s1 msk tbl => ps.map LegacyPrefix.byte ++ encodeEvex 1#2 d s1 msk tbl
  | .vpermpsEvex512 ps d s1 msk tbl => ps.map LegacyPrefix.byte ++ encodeEvex 2#2 d s1 msk tbl

/-! ## Words as spec/opcode_table.json numbers them -/

/-- R69: the number's most significant byte is the first byte in address order. -/
def bytesHighFirst : Nat → Nat → List Byte
  | 0, _ => []
  | n + 1, w => BitVec.ofNat 8 (w >>> (8 * n)) :: bytesHighFirst n w

/-- The other numbering: the number's least significant byte is the first byte. -/
def bytesLowFirst : Nat → Nat → List Byte
  | 0, _ => []
  | n + 1, w => BitVec.ofNat 8 w :: bytesLowFirst n (w >>> 8)

/-- The bytes a table word stands for, with zero bytes up to the longest instruction. The table numbers its rows by R69;
a word whose low byte is an escape byte, not the opcode byte that R69 puts there, is read low byte first
(assumption 19). -/
def tableBytes (nbits w : Nat) : List Byte :=
  let low := BitVec.ofNat 8 w
  let bs := if low = 0xC4#8 ∨ low = 0x62#8 then bytesLowFirst (nbits / 8) w else bytesHighFirst (nbits / 8) w
  bs ++ List.replicate (maxLen - nbits / 8) 0#8

/-- The instruction the decoder reads from a table word. -/
def decodeTableWord (nbits w : Nat) : Option Instr :=
  match decode (tableBytes nbits w) with
  | .instr i => some i
  | _ => none

end Sys2Proof
end

