-- ==== Sys2Proof/Machine/Fetch.lean ====
section
/-! DEFINITION. Fetching the bytes of an instruction, and what a fetch or decode that yields no instruction does
(spec/60_exceptions.md R131, R135, R141, R147). -/

namespace Sys2Proof.Machine

/-- The linear address of the next instruction: `rip` in 64-bit mode (spec/10_state.md R27, R32); outside it the CS base
counts (spec/70_reset_and_hazards.md R161, assumption 15). -/
def State.fetchAddr (s : State) : Quad :=
  match s.mode with
  | .long64 => s.rip
  | .prot32 => s.csBase + s.rip
  | .virtual8086 => s.csBase + s.rip
  | .realAddress => s.csBase + s.rip

/-- `Translate(a, 1, fetch)` with the canonical check: the byte, if it can be fetched (R147). -/
def State.fetchByte (s : State) (a : Quad) : Option Byte :=
  if s.canonical a then
    match s.translate .fetch a with
    | .ok b => some b
    | .pageFault _ _ => none
    | .gp0 => none
    | .ss0 => none
    | .device => none
  else none

/-- The bytes from `a` on up to the first that cannot be fetched, at most `fuel` of them. -/
def State.fetchFrom (s : State) : Nat → Quad → List Byte
  | 0, _ => []
  | fuel + 1, a =>
    match s.fetchByte a with
    | some b => b :: s.fetchFrom fuel (a + 1)
    | none => []

/-- No instruction is longer than the address space. -/
def fetchLimit : Nat := 2 ^ 64

/-- The bytes at the instruction pointer, up to the first that cannot be fetched. -/
def State.fetchBytes (s : State) : List Byte := s.fetchFrom fetchLimit s.fetchAddr

/-- The fault of a byte that cannot be fetched (R147): #GP(0), or #PF with I/D = 1 and CR2 the address `Translate` gives, else
that of the byte (assumption 25). Device memory is refused. `ok` is no such answer: `decodeStop` asks for the first byte that
cannot be fetched. -/
def State.fetchStop (s : State) (a : Quad) : Stop :=
  if s.canonical a then
    match s.translate .fetch a with
    | .pageFault code la => raise (fun r => .pf r code (la.getD a)) s
    | .device => .refuse .deviceMemory
    | .gp0 => raise .gp0 s
    | .ss0 => raise .gp0 s
    | .ok _ => raise .gp0 s
  else raise .gp0 s

/-- #UD or #GP(0): either is admitted for an encoding both illegal and over-long (R141 item 2, 90_conflicts.md C7,
assumption 11). -/
def State.udOrGp0 (s : State) : Stop := pickFrom (Config.decodeChoice s.freeIx) (raise .ud s) [raise .gp0 s]

/-- The stop of bytes that yield no instruction. An over-long encoding is illegal as well where the state makes its form #UD
(R131 rows 2 to 6). -/
def State.decodeStop (s : State) (bs : List Byte) : Reject → Stop
  | .notVpermps => .refuse .notVpermps
  | .illegal => raise .ud s
  | .tooLong f => if s.disabled f then s.udOrGp0 else raise .gp0 s
  | .illegalTooLong => s.udOrGp0
  | .unfinished => s.fetchStop (s.fetchAddr + BitVec.ofNat 64 bs.length)

end Sys2Proof.Machine
end

