-- ==== Sys2Proof/Machine/Launch.lean ====
section
/-! DEFINITION. What the outside world does to the machine: the INIT signal (spec/70_reset_and_hazards.md R161), and the
launch of a run (R160, R163, R165), which the host establishes before the first instruction. -/

namespace Sys2Proof.Machine

/-- The machine after an INIT, column 3 of R161: the vector and opmask registers, MXCSR, XCR0 and CR0.CD and CR0.NW keep
their values, what the table names besides starts again, and the rest stays (assumption 27). -/
def State.afterInit (s : State) : State :=
  { s with
    g := State.reset.g
    rip := State.reset.rip
    csBase := State.reset.csBase
    csL := State.reset.csL
    rflags := State.reset.rflags
    cr0 := 0x10#64 ||| (s.cr0 &&& 0x60000000#64)
    cr4 := State.reset.cr4
    efer := State.reset.efer
    cpl := State.reset.cpl
    fsBase := State.reset.fsBase
    gsBase := State.reset.gsBase }

/-- R163 (1) to (5): protected mode, paging and 64-bit mode, CR4.OSXSAVE, XCR0[2:1] and XCR0[7:5], CR0.TS clear. That paging is
CR0 bit 31 and LME IA32_EFER bit 8 is presumed (assumption 5). -/
def State.enabled (s : State) : State :=
  { s with
    cr0 := (s.cr0 ||| 1#64 ||| 1#64 <<< 31) &&& ~~~(1#64 <<< 3)
    cr4 := s.cr4 ||| 1#64 <<< 18
    xcr0 := s.xcr0 ||| 0xE6#64
    efer := s.efer ||| 1#64 <<< 8 ||| 1#64 <<< 10
    rflags := s.rflags &&& ~~~(1#64 <<< 17)
    csL := true }

/-- Maps with zero every byte of `as` that is not mapped yet. -/
def Memory.mapZero (m : Memory) : List Quad → Memory
  | [] => m
  | a :: as => Memory.mapZero (match m.get a.toNat with | some _ => m | none => m.set a.toNat 0#8) as

/-- The linear addresses an instruction's memory operand reads in this state (spec/20_memory.md R43). -/
def State.operandAddrs (s : State) (i : Instr) : List Quad :=
  let full (f : Form) (ps : List LegacyPrefix) (m : MemRef) :=
    addrs (s.linearAddress f ps false i.len m) (VecLen.bytes f.vl)
  let one (f : Form) (ps : List LegacyPrefix) (m : MemRef) := addrs (s.linearAddress f ps true i.len m) 4
  match i with
  | .vpermpsVex256 ps _ _ (.mem m) => full .vex256 ps m
  | .vpermpsVex256 _ _ _ (.reg _) => []
  | .vpermpsEvex256 ps _ _ _ (.mem m) => full .evex256 ps m
  | .vpermpsEvex256 ps _ _ _ (.bcst m) => one .evex256 ps m
  | .vpermpsEvex256 _ _ _ _ (.reg _) => []
  | .vpermpsEvex512 ps _ _ _ (.mem m) => full .evex512 ps m
  | .vpermpsEvex512 ps _ _ _ (.bcst m) => one .evex512 ps m
  | .vpermpsEvex512 _ _ _ _ (.reg _) => []

/-- The launch of one encoded instruction: the premises of R163 hold and its bytes stand at `rip`. -/
def State.launch (s : State) (bytes : List Byte) : State :=
  let e := s.enabled
  { e with regions := [], mem := Memory.setBytes e.mem e.rip bytes }

/-- R163 (6): the memory operand is mapped. -/
def State.mapOperand (s : State) (i : Instr) : State := { s with mem := Memory.mapZero s.mem (s.operandAddrs i) }

end Sys2Proof.Machine
end

