-- ==== Sys2Proof/Machine/Step.lean ====
section
/-! DEFINITION. One step: fetch, decode, execute (spec/40_vpermps.md R115, spec/60_exceptions.md R141). -/

namespace Sys2Proof.Machine

/-- One instruction. 32-bit mode is refused before its bytes are decoded: the decoder is the 64-bit one (R84, D1). -/
def step (s : State) : Host.Outcome State Fault Refusal :=
  if s.mode = .prot32 then .refused .prot32Mode
  else
    let bs := s.fetchBytes
    match decode bs with
    | .instr i => exec i s
    | .reject why => (s.decodeStop bs why).outcome

/-- `s` launched with the instruction of a table word where `step` fetches next (assumption 5). -/
def State.withFetchWord (s : State) (nbits w : Nat) : State :=
  let t := s.launch (tableBytes nbits w)
  match decodeTableWord nbits w with
  | some i => t.mapOperand i
  | none => t

end Sys2Proof.Machine
end

