-- ==== Sys2Proof/Machine/Assembly.lean ====
section
/-! DEFINITION. The assembler's side of VPERMPS: the Intel and AT&T spellings of an instruction (spec/30_encoding.md R93,
R94, as spec/95_test_vectors.md E1 to E29 write them) and the assembler's choice between the VEX and EVEX encodings of a
256-bit VPERMPS (R93). How numbers are written is the model's choice (assumption 26). -/

namespace Sys2Proof

/-- A word in braces. -/
def braced (w : String) : String := String.singleton (Char.ofNat 123) ++ w ++ String.singleton (Char.ofNat 125)

def hexText (n : Nat) : String := "0x" ++ String.ofList (Nat.toDigits 16 n)

/-- A displacement with its sign. -/
def dispText (v : Quad) : String :=
  if v.toInt < 0 then "-" ++ hexText v.toInt.natAbs else "+" ++ hexText v.toNat

/-- A general register by number (spec/10_state.md R26). -/
def GReg.name (a32 : Bool) (r : GReg) : String :=
  let old := ["ax", "cx", "dx", "bx", "sp", "bp", "si", "di"]
  if r.toNat < 8 then (if a32 then "e" else "r") ++ old.getD r.toNat ""
  else "r" ++ toString r.toNat ++ if a32 then "d" else ""

def LegacyPrefix.segmentText : LegacyPrefix → Option String
  | .es => some "es:"
  | .cs => some "cs:"
  | .ss => some "ss:"
  | .ds => some "ds:"
  | .fs => some "fs:"
  | .gs => some "gs:"
  | .addr32 => none

def indexText (a32 : Bool) (index : GReg) (scale : BitVec 2) : String :=
  if index = 4#4 then "" else index.name a32 ++ "*" ++ toString (1 <<< scale.toNat)

def Disp.text (n : BitVec 64) : Disp → String
  | .none => ""
  | .disp8 v => dispText (Disp.value n (.disp8 v))
  | .disp32 v => dispText (Disp.value n (.disp32 v))

/-- The bracketed address. -/
def MemRef.text (a32 : Bool) (n : BitVec 64) : MemRef → String
  | .ripRel disp => "[" ++ (if a32 then "eip" else "rip") ++ dispText (disp.signExtend 64) ++ "]"
  | .base b disp => "[" ++ b.name a32 ++ disp.text n ++ "]"
  | .sib b index scale disp =>
    let idx := indexText a32 index scale
    "[" ++ b.name a32 ++ (if idx = "" then "" else "+" ++ idx) ++ disp.text n ++ "]"
  | .sibNoBase index scale disp =>
    "[" ++ (if index = 4#4 ∧ 0 ≤ disp.toInt then hexText disp.toNat
      else indexText a32 index scale ++ dispText (disp.signExtend 64)) ++ "]"

/-- A memory operand with its size, segment override and address (R94). -/
def memText (size : String) (f : Form) (broadcast : Bool) (ps : List LegacyPrefix) (m : MemRef) : String :=
  size ++ " ptr " ++ ((ps.filterMap LegacyPrefix.segmentText).getLast?).getD ""
    ++ m.text (ps.contains .addr32) (f.dispScale broadcast)

/-- `ymm` or `zmm` with a number. -/
def VecLen.regText (vl : VecLen) (n : Nat) : String :=
  (match vl with | .vl256 => "ymm" | .vl512 => "zmm") ++ toString n

def EvexTable.text (f : Form) (ps : List LegacyPrefix) : EvexTable → String
  | .reg n => f.vl.regText n.toNat
  | .mem m => memText (match f.vl with | .vl256 => "ymmword" | .vl512 => "zmmword") f false ps m
  | .bcst m => memText "dword" f true ps m ++ braced ("1to" ++ toString f.vl.kl)

/-- `{k1}{z}` after the destination; nothing when they are omitted. -/
def Masking.text : Masking → String
  | .noWritemask => ""
  | .merging k => braced ("k" ++ toString k.index.val)
  | .zeroing k => braced ("k" ++ toString k.index.val) ++ braced "z"

/-- The operand among the registers 0..15, when the VEX form can name it. -/
def EvexTable.narrow : EvexTable → Option VexTable
  | .reg n => if n.toNat < 16 then some (.reg (n.setWidth 4)) else none
  | .mem m => some (.mem m)
  | .bcst _ => none

/-- The request for the EVEX encoding where the assembler would choose VEX (E5). -/
def evexText (d s1 : BitVec 5) (msk : Masking) (tbl : EvexTable) : String :=
  if msk = .noWritemask ∧ d.toNat < 16 ∧ s1.toNat < 16 ∧ tbl.narrow.isSome then braced "evex" ++ " " else ""

def vpermpsText (f : Form) (ps : List LegacyPrefix) (d s1 : Nat) (msk : Masking) (tbl : EvexTable) : String :=
  "VPERMPS " ++ f.vl.regText d ++ msk.text ++ ", " ++ f.vl.regText s1 ++ ", " ++ tbl.text f ps

/-- The instruction in Intel syntax: mnemonic, destination, first source, second source (R93). -/
def Instr.intel : Instr → String
  | .vpermpsVex256 ps d s1 tbl => vpermpsText .vex256 ps d.toNat s1.toNat .noWritemask tbl.widen
  | .vpermpsEvex256 ps d s1 msk tbl => evexText d s1 msk tbl ++ vpermpsText .evex256 ps d.toNat s1.toNat msk tbl
  | .vpermpsEvex512 ps d s1 msk tbl => vpermpsText .evex512 ps d.toNat s1.toNat msk tbl

/-! ## AT&T syntax: the operands in reverse order, registers marked (R94) -/

/-- A displacement in front of the parentheses; nothing for an absent one. -/
def attDispText (v : Quad) : String := if v.toInt < 0 then "-" ++ hexText v.toInt.natAbs else hexText v.toNat

def Disp.att (n : BitVec 64) : Disp → String
  | .none => ""
  | .disp8 v => attDispText (Disp.value n (.disp8 v))
  | .disp32 v => attDispText (Disp.value n (.disp32 v))

def attIndexText (a32 : Bool) (index : GReg) (scale : BitVec 2) : String :=
  if index = 4#4 then "" else ",%" ++ index.name a32 ++ "," ++ toString (1 <<< scale.toNat)

def MemRef.att (a32 : Bool) (n : BitVec 64) : MemRef → String
  | .ripRel disp => attDispText (disp.signExtend 64) ++ "(%" ++ (if a32 then "eip" else "rip") ++ ")"
  | .base b disp => disp.att n ++ "(%" ++ b.name a32 ++ ")"
  | .sib b index scale disp => disp.att n ++ "(%" ++ b.name a32 ++ attIndexText a32 index scale ++ ")"
  | .sibNoBase index scale disp =>
    let idx := attIndexText a32 index scale
    attDispText (disp.signExtend 64) ++ if idx = "" then "" else "(" ++ idx ++ ")"

def attMemText (f : Form) (broadcast : Bool) (ps : List LegacyPrefix) (m : MemRef) : String :=
  (match (ps.filterMap LegacyPrefix.segmentText).getLast? with | some seg => "%" ++ seg | none => "")
    ++ m.att (ps.contains .addr32) (f.dispScale broadcast)

def EvexTable.att (f : Form) (ps : List LegacyPrefix) : EvexTable → String
  | .reg n => "%" ++ f.vl.regText n.toNat
  | .mem m => attMemText f false ps m
  | .bcst m => attMemText f true ps m ++ braced ("1to" ++ toString f.vl.kl)

def Masking.att : Masking → String
  | .noWritemask => ""
  | .merging k => braced ("%k" ++ toString k.index.val)
  | .zeroing k => braced ("%k" ++ toString k.index.val) ++ braced "z"

def vpermpsAtt (f : Form) (ps : List LegacyPrefix) (d s1 : Nat) (msk : Masking) (tbl : EvexTable) : String :=
  "vpermps " ++ tbl.att f ps ++ ", %" ++ f.vl.regText s1 ++ ", %" ++ f.vl.regText d ++ msk.att

/-- The instruction in AT&T syntax. -/
def Instr.att : Instr → String
  | .vpermpsVex256 ps d s1 tbl => vpermpsAtt .vex256 ps d.toNat s1.toNat .noWritemask tbl.widen
  | .vpermpsEvex256 ps d s1 msk tbl => evexText d s1 msk tbl ++ vpermpsAtt .evex256 ps d.toNat s1.toNat msk tbl
  | .vpermpsEvex512 ps d s1 msk tbl => vpermpsAtt .evex512 ps d.toNat s1.toNat msk tbl

/-! ## The assembler's choices -/

/-- The shortest field for the displacement `v`: none for zero (unless the base register needs one), an 8-bit field when
`v` is a multiple of the scale in range, else 32 bits (R75; spec/95_test_vectors.md E9, E12, E19, E22 to E25). -/
def Disp.shortest (n : Nat) (needed : Bool) (v : BitVec 32) : Disp :=
  if v = 0#32 ∧ !needed then .none
  else if v.toInt % n = 0 ∧ -128 ≤ v.toInt / n ∧ v.toInt / n ≤ 127 then .disp8 (BitVec.ofInt 8 (v.toInt / n))
  else .disp32 v

def Disp.shorten (n : Nat) (needed : Bool) : Disp → Disp
  | .disp32 v => Disp.shortest n needed v
  | .none => .none
  | .disp8 v => .disp8 v

def MemRef.shorten (n : Nat) : MemRef → MemRef
  | .ripRel disp => .ripRel disp
  | .base b disp => .base b (disp.shorten n (b.low3 == 5#3))
  | .sib b index scale disp => .sib b index scale (disp.shorten n (b.low3 == 5#3))
  | .sibNoBase index scale disp => .sibNoBase index scale disp

def EvexTable.shorten (f : Form) : EvexTable → EvexTable
  | .reg n => .reg n
  | .mem m => .mem (m.shorten (f.dispScale false).toNat)
  | .bcst m => .bcst (m.shorten (f.dispScale true).toNat)

/-- The assembler's encoding of an instruction whose displacements are given as 32-bit values: for `ymm` operands the VEX
form with registers 0..15, no mask and no broadcast, else EVEX256 (R93). -/
def assemble (vl : VecLen) (ps : List LegacyPrefix) (d s1 : BitVec 5) (msk : Masking) (tbl : EvexTable) : Instr :=
  match vl with
  | .vl512 => .vpermpsEvex512 ps d s1 msk (tbl.shorten .evex512)
  | .vl256 =>
    match decide (msk = .noWritemask ∧ d.toNat < 16 ∧ s1.toNat < 16), (tbl.shorten .vex256).narrow with
    | true, some t => .vpermpsVex256 ps (d.setWidth 4) (s1.setWidth 4) t
    | _, _ => .vpermpsEvex256 ps d s1 msk (tbl.shorten .evex256)

end Sys2Proof
end

