-- ==== Sys2Proof/Machine/Intrinsics.lean ====
section
/-! DEFINITION. The six C intrinsics of spec/30_encoding.md R96 as functions on values: `i` is operand 2, `a` operand 3, the
value the new operand 1, `k` the writemask, `s` the old operand 1. The types of the page's arguments do not matter
(90_conflicts.md C5). -/

namespace Sys2Proof

/-- Element by element `x` where the mask bit is set, else `y`. -/
def select (vl : VecLen) (k : Nat → Bool) (x y : Vec) : Vec :=
  ofElems (fun j => if k j then elem32 x j else elem32 y j) vl.kl

def mm512_permutexvar_ps (i a : BitVec 512) : BitVec 512 := permute .vl512 i a

def mm512_mask_permutexvar_ps (s : BitVec 512) (k : BitVec 16) (i a : BitVec 512) : BitVec 512 :=
  select .vl512 k.getLsbD (mm512_permutexvar_ps i a) s

def mm512_maskz_permutexvar_ps (k : BitVec 16) (i a : BitVec 512) : BitVec 512 :=
  select .vl512 k.getLsbD (mm512_permutexvar_ps i a) 0#512

def mm256_permutexvar_ps (i a : BitVec 256) : BitVec 256 :=
  (permute .vl256 (i.setWidth 512) (a.setWidth 512)).setWidth 256

def mm256_mask_permutexvar_ps (s : BitVec 256) (k : BitVec 8) (i a : BitVec 256) : BitVec 256 :=
  (select .vl256 k.getLsbD ((mm256_permutexvar_ps i a).setWidth 512) (s.setWidth 512)).setWidth 256

def mm256_maskz_permutexvar_ps (k : BitVec 8) (i a : BitVec 256) : BitVec 256 :=
  (select .vl256 k.getLsbD ((mm256_permutexvar_ps i a).setWidth 512) 0#512).setWidth 256

end Sys2Proof
end

