-- ==== Sys2Proof/Safety.lean ====
section
/-! DEFINITION. Runs and what holds of every state a run reaches. -/

namespace Sys2Proof

open Sys2Proof.Machine

/-- A run to the end address a claim names (spec/70_reset_and_hazards.md R164): it is final when `rip = ripEnd` with no
fault; a fault ends it and nothing clears it (spec/60_exceptions.md R140), and so does a refusal (assumption 28). `none`:
not ended within `fuel` steps. -/
def runTo (ripEnd : Quad) : Nat → State → Option (Host.Outcome State Fault Refusal)
  | 0, s => if s.rip = ripEnd then some (.next s) else none
  | fuel + 1, s =>
    if s.rip = ripEnd then some (.next s)
    else
      match step s with
      | .next t => runTo ripEnd fuel t
      | .fault f => some (.fault f)
      | .refused r => some (.refused r)

/-- A safe run: it reaches its end address. -/
def SafeRun (ripEnd : Quad) (s : State) : Prop := ∃ fuel t, runTo ripEnd fuel s = some (.next t)

/-- A machine with `MAXVL` = 256 has sixteen registers of 256 bits (spec/10_state.md R21): the rest of the storage is
zero. -/
def VectorsWithinMaxvl (s : State) : Prop :=
  s.cfg.hasAvx512f = false →
    ∀ n : BitVec 5, s.readV n >>> 256 = 0#512 ∧ (16 ≤ n.toNat → s.readV n = 0#512)

/-- The invariant of every state: memory in canonical form, vector registers within `MAXVL`. -/
def Inv (s : State) : Prop := s.mem.wf ∧ VectorsWithinMaxvl s

end Sys2Proof
end

