-- ==== Sys2Proof/Certificates/Slice0/Obligations.lean ====
section
/-! DEFINITION. The statements for the provers, and the vocabulary they share. "Assumption n" is notes/assumptions/n.md. -/

open Sys2Proof Sys2Proof.Machine

namespace Sys2Proof.Spec

/-! ## Vocabulary -/

/-- None of the conditions of spec/60_exceptions.md R131 rows 2 to 6 and R133 holds: a form executes normally. -/
def Ready (s : State) (f : Form) : Prop :=
  s.mode = .long64 ∧ s.hasForm f = true ∧ s.osEnabled f = true ∧ s.cr0TS = false

/-- A byte of the operand is canonical and translated, and memory holds `b` there. -/
def Readable (s : State) (a : Quad) (b : Byte) : Prop := s.canonical a = true ∧ s.translate .read a = .ok b

/-- The doubleword at `a`, least significant byte lowest (spec/20_memory.md R40). -/
def DwordAt (s : State) (a : Quad) (e : Elem) : Prop :=
  ∃ b0 b1 b2 b3, Readable s a b0 ∧ Readable s (a + 1) b1 ∧ Readable s (a + 2) b2 ∧ Readable s (a + 3) b3 ∧
    e = b3 ++ b2 ++ b1 ++ b0

/-- Operand 3 can be read, and the elements of the table are `T` (spec/40_vpermps.md R100, R105). -/
def TableIs (s : State) (f : Form) (ps : List LegacyPrefix) (len : Nat) (T : Nat → Elem) : EvexTable → Prop
  | .reg n => ∀ j < f.vl.kl, T j = elem32 (s.readV n) j
  | .mem m => ∀ j < f.vl.kl, DwordAt s (s.linearAddress f ps false len m + BitVec.ofNat 64 (4 * j)) (T j)
  | .bcst m => s.mayCheckAlignment (s.linearAddress f ps true len m) = false ∧
      ∃ e, DwordAt s (s.linearAddress f ps true len m) e ∧ ∀ j < f.vl.kl, T j = e

/-- Element `j` after masking: `new` where the mask bit is 1 or there is no writemask, else the old element or zero
(spec/40_vpermps.md R106 to R108). -/
def masked (s : State) (msk : Masking) (j : Nat) (new old : Elem) : Elem :=
  match msk with
  | .noWritemask => new
  | .merging r => if s.k[r.index].getLsbD j then new else old
  | .zeroing r => if s.k[r.index].getLsbD j then new else 0#32

/-- What a completed VPERMPS with destination `d` leaves alone, and where `rip` goes. -/
def Frame (s t : State) (d : BitVec 5) (len : Nat) : Prop :=
  (∀ n, n ≠ d → t.readV n = s.readV n) ∧ t.k = s.k ∧ t.g = s.g ∧ t.rip = s.rip + BitVec.ofNat 64 len ∧
    (∀ a, t.mem.get a = s.mem.get a) ∧ t.mem = s.mem ∧ t.regions = s.regions ∧ t.rflags = s.rflags ∧
    t.mxcsr = s.mxcsr ∧ t.cr0 = s.cr0 ∧ t.cr4 = s.cr4 ∧ t.xcr0 = s.xcr0 ∧ t.efer = s.efer ∧ t.csL = s.csL ∧
    t.cpl = s.cpl ∧ t.csBase = s.csBase ∧ t.fsBase = s.fsBase ∧ t.gsBase = s.gsBase ∧ t.cfg = s.cfg

/-- The destination register of an instruction (operand 1). -/
def dest : Instr → BitVec 5
  | .vpermpsVex256 _ d _ _ => d.setWidth 5
  | .vpermpsEvex256 _ d _ _ _ => d
  | .vpermpsEvex512 _ d _ _ _ => d

/-- The form of an instruction. -/
def form : Instr → Form
  | .vpermpsVex256 _ _ _ _ => .vex256
  | .vpermpsEvex256 _ _ _ _ _ => .evex256
  | .vpermpsEvex512 _ _ _ _ _ => .evex512

/-- The conditions of spec/60_exceptions.md R131 rows 2 to 6 do not hold: the state does not make the form #UD. -/
def Enabled (s : State) (f : Form) : Prop := s.mode = .long64 ∧ s.hasForm f = true ∧ s.osEnabled f = true

/-- The base `FS_BASE` or `GS_BASE` adds to an address (spec/30_encoding.md R74). -/
def baseOf (s : State) : Segment → Quad
  | .fs => s.fsBase
  | .gs => s.gsBase
  | .ss => 0#64
  | .ds => 0#64

/-- The opmask register of a writemask. -/
def maskReg : Masking → Option OpmaskReg
  | .noWritemask => none
  | .merging r => some r
  | .zeroing r => some r

/-- The opmask register an instruction's writemask names. -/
def writemaskOf : Instr → Option OpmaskReg
  | .vpermpsVex256 _ _ _ _ => none
  | .vpermpsEvex256 _ _ _ msk _ => maskReg msk
  | .vpermpsEvex512 _ _ _ msk _ => maskReg msk

/-- The memory operand of an instruction and whether it is broadcast. -/
def memOperand : Instr → Option (List LegacyPrefix × MemRef × Bool)
  | .vpermpsVex256 ps _ _ (.mem m) => some (ps, m, false)
  | .vpermpsVex256 _ _ _ (.reg _) => none
  | .vpermpsEvex256 ps _ _ _ (.mem m) => some (ps, m, false)
  | .vpermpsEvex256 ps _ _ _ (.bcst m) => some (ps, m, true)
  | .vpermpsEvex256 _ _ _ _ (.reg _) => none
  | .vpermpsEvex512 ps _ _ _ (.mem m) => some (ps, m, false)
  | .vpermpsEvex512 ps _ _ _ (.bcst m) => some (ps, m, true)
  | .vpermpsEvex512 _ _ _ _ (.reg _) => none

/-- The linear address of a memory operand (spec/30_encoding.md R74). -/
def operandAddr (s : State) (i : Instr) (o : List LegacyPrefix × MemRef × Bool) : Quad :=
  s.linearAddress (form i) o.1 o.2.2 i.len o.2.1

/-- The number of bytes a memory operand is read for: 4, 32 or 64 (spec/20_memory.md R43). -/
def operandBytes (i : Instr) (o : List LegacyPrefix × MemRef × Bool) : Nat :=
  match o.2.2, form i with
  | true, _ => 4
  | false, .vex256 => 32
  | false, .evex256 => 32
  | false, .evex512 => 64

/-- The address of byte `k` of the memory operand, modulo 2^64. -/
def byteAddr (s : State) (i : Instr) (o : List LegacyPrefix × MemRef × Bool) (k : Nat) : Quad :=
  operandAddr s i o + BitVec.ofNat 64 k

/-- Applied to the next state of an outcome; a fault or a refusal is kept. -/
def mapNext (g : State → State) : Host.Outcome State Fault Refusal → Host.Outcome State Fault Refusal
  | .next t => .next (g t)
  | .fault f => .fault f
  | .refused r => .refused r

/-- `bs` can be fetched from the instruction pointer on. -/
def Fetches (s : State) (bs : List Byte) : Prop :=
  ∀ j (h : j < bs.length), s.fetchByte (s.fetchAddr + BitVec.ofNat 64 j) = some bs[j]

end Sys2Proof.Spec

open Sys2Proof.Spec

/-! ## Reset and launch -/

/-- The table of spec/70_reset_and_hazards.md R161 (from general knowledge there; assumption 2); nothing is said of rdx, of
CS.L, the FS and GS bases, the feature flags and the counter, which the model chose (assumptions 3, 4, 14). -/
def Obligations.ResetStateValues : Prop :=
  (∀ n, State.reset.readV n = 0#512) ∧ (∀ n : Fin 8, State.reset.k[n] = 0#64) ∧
    (∀ n : GReg, n ≠ 2#4 → State.reset.readG n = 0#64) ∧ State.reset.rip = 0x0000FFF0#64 ∧
    State.reset.csBase = 0xFFFF0000#64 ∧ State.reset.fetchAddr = 0xFFFFFFF0#64 ∧ State.reset.rflags = 0x00000002#64 ∧
    State.reset.mxcsr = 0x1F80#32 ∧ State.reset.cr0 = 0x60000010#64 ∧ State.reset.cr4 = 0#64 ∧
    State.reset.xcr0 = 1#64 ∧ State.reset.efer = 0#64 ∧ State.reset.cpl = 0#2 ∧ State.reset.mode = .realAddress

/-- R161: "immediately after reset every VPERMPS encoding raises #UD". -/
def Obligations.ResetEveryFormIsUd : Prop :=
  ∀ i : Instr, exec i State.reset = .fault (.ud State.reset.rip)

/-- The INIT column of R161 (from general knowledge there; assumption 27): what an INIT keeps and what it sets; every
VPERMPS is #UD after it. The column names no memory: that `mem` is kept is the model's choice (DESIGN CHOICE of assumption 27);
that the CR0 bits other than CD and NW are those of a reset, and that every VPERMPS is #UD, is read from it (DEDUCED there).
Nothing is said of rdx, which the model chose (assumption 3). -/
def Obligations.InitKeepsVectors : Prop :=
  ∀ s : State, s.afterInit.v = s.v ∧ s.afterInit.k = s.k ∧ s.afterInit.mxcsr = s.mxcsr ∧ s.afterInit.xcr0 = s.xcr0 ∧
    s.afterInit.mem = s.mem ∧ (∀ n : GReg, n ≠ 2#4 → s.afterInit.readG n = 0#64) ∧ s.afterInit.rip = 0x0000FFF0#64 ∧
    s.afterInit.csBase = 0xFFFF0000#64 ∧ s.afterInit.fetchAddr = 0xFFFFFFF0#64 ∧ s.afterInit.rflags = 2#64 ∧
    s.afterInit.cr4 = 0#64 ∧ s.afterInit.efer = 0#64 ∧ s.afterInit.cpl = 0#2 ∧
    (∀ n < 64, s.afterInit.cr0.getLsbD n = if n = 29 ∨ n = 30 then s.cr0.getLsbD n else decide (n = 4)) ∧
    ∀ i, exec i s.afterInit = .fault (.ud s.afterInit.rip)

/-- The boot steps of R163 (1) to (5), from any state whose feature flags are set, make every form ready. -/
def Obligations.BootStepsEnableEveryForm : Prop :=
  ∀ s : State, s.cfg.hasAvx2 = true → s.cfg.hasAvx512f = true → s.cfg.hasAvx512vl = true →
    ∀ f, Ready s.enabled f

/-- The launch of a table word: the very next step runs the instruction the decoder reads from it (assumption 5). -/
def Obligations.LaunchedWordRuns : Prop :=
  ∀ (s : State) (nbits w : Nat) (i : Instr), decodeTableWord nbits w = some i →
    (∀ j < (tableBytes nbits w).length, (s.withFetchWord nbits w).canonical (s.rip + BitVec.ofNat 64 j) = true) →
    (tableBytes nbits w).length < 2 ^ 64 →
    step (s.withFetchWord nbits w) = exec i (s.withFetchWord nbits w)

/-! ## The invariant -/

/-- Memory in canonical form and vector registers within `MAXVL`, at reset. -/
def Obligations.InvariantHoldsAtReset : Prop := Inv State.reset

/-- Every step keeps memory in canonical form and, on a machine without AVX512F, the sixteen registers of 256 bits
(spec/10_state.md R21; spec/40_vpermps.md R110). -/
def Obligations.StepKeepsInvariant : Prop :=
  ∀ s t : State, Inv s → step s = .next t → Inv t

/-! ## Encoding -/

/-- Decoding the encoding of a well-formed instruction, whatever follows it, gives the instruction. -/
def Obligations.DecodeOfEncode : Prop :=
  ∀ (i : Instr) (rest : List Byte), i.wf = true → decode (encode i ++ rest) = .instr i

/-- What the decoder reads is well-formed: an encodable operand and at most 15 bytes (R83). -/
def Obligations.DecodedInstructionsAreWellFormed : Prop :=
  ∀ (bs : List Byte) (i : Instr), decode bs = .instr i → i.wf = true

/-- The decoder reads the `len` bytes of the instruction and no more (R81). -/
def Obligations.DecodeReadsOnlyTheInstruction : Prop :=
  ∀ (bs : List Byte) (i : Instr), decode bs = .instr i →
    i.len ≤ bs.length ∧ ∀ rest, decode (bs.take i.len ++ rest) = .instr i

/-- R81: without legacy prefixes VEX256 is 5 to 10 bytes and the EVEX forms 6 to 11 bytes. -/
def Obligations.EncodedLengthRange : Prop :=
  (∀ d s1 tbl, 5 ≤ (encode (.vpermpsVex256 [] d s1 tbl)).length ∧ (encode (.vpermpsVex256 [] d s1 tbl)).length ≤ 10) ∧
    (∀ d s1 msk tbl, 6 ≤ (encode (.vpermpsEvex256 [] d s1 msk tbl)).length ∧
      (encode (.vpermpsEvex256 [] d s1 msk tbl)).length ≤ 11) ∧
    ∀ d s1 msk tbl, 6 ≤ (encode (.vpermpsEvex512 [] d s1 msk tbl)).length ∧
      (encode (.vpermpsEvex512 [] d s1 msk tbl)).length ≤ 11

/-- The bytes of spec/95_test_vectors.md E3, E20, E10, E16, E14, E28. -/
def Obligations.SpecEncodingsDecode : Prop :=
  decode [0xC4#8, 0x42#8, 0x2D#8, 0x16#8, 0xCB#8] = .instr (.vpermpsVex256 [] 9#4 10#4 (.reg 11#4)) ∧
    decode [0xC4#8, 0x62#8, 0x7D#8, 0x16#8, 0x44#8, 0x24#8, 0x20#8] =
      .instr (.vpermpsVex256 [] 8#4 0#4 (.mem (.sib 4#4 4#4 0#2 (.disp8 0x20#8)))) ∧
    decode [0x62#8, 0xE2#8, 0x6D#8, 0x20#8, 0x16#8, 0x48#8, 0x01#8] =
      .instr (.vpermpsEvex256 [] 17#5 18#5 .noWritemask (.mem (.base 0#4 (.disp8 0x01#8)))) ∧
    decode [0x62#8, 0xF2#8, 0x6D#8, 0x3A#8, 0x16#8, 0x08#8] =
      .instr (.vpermpsEvex256 [] 1#5 2#5 (.merging .k2) (.bcst (.base 0#4 .none))) ∧
    decode [0x62#8, 0x12#8, 0x5D#8, 0xC3#8, 0x16#8, 0x54#8, 0xC8#8, 0x04#8] =
      .instr (.vpermpsEvex512 [] 10#5 20#5 (.zeroing .k3) (.mem (.sib 8#4 9#4 3#2 (.disp8 0x04#8)))) ∧
    decode [0x62#8, 0xA2#8, 0x75#8, 0x40#8, 0x16#8, 0xC2#8] =
      .instr (.vpermpsEvex512 [] 16#5 17#5 .noWritemask (.reg 18#5))

/-- R64, R68, R69: a table word with the match bits of a row decodes to the constructor of that row; the free bits of an EVEX
row make it illegal exactly when `z` = 1 with `aaa` = 000 (R90). ModRM is the zero byte the model appends (assumption 19). -/
def Obligations.TableRowsDecodeToTheirForm : Prop :=
  ∀ w : Nat,
    (w &&& 0xFF1F87FF = 0xC4020516 → ∃ i, decodeTableWord 32 w = some i ∧ form i = .vex256) ∧
      (w &&& 0xFF0F8760FF = 0x6202052016 →
        (w.testBit 15 = true ∧ w >>> 8 % 8 = 0 → decodeTableWord 40 w = none) ∧
        (w.testBit 15 = false ∨ w >>> 8 % 8 ≠ 0 → ∃ i, decodeTableWord 40 w = some i ∧ form i = .evex256)) ∧
      (w &&& 0xFF0F8760FF = 0x6202054016 →
        (w.testBit 15 = true ∧ w >>> 8 % 8 = 0 → decodeTableWord 40 w = none) ∧
        (w.testBit 15 = false ∨ w >>> 8 % 8 ≠ 0 → ∃ i, decodeTableWord 40 w = some i ∧ form i = .evex512))

/-- VEX `X~` without an SIB byte, EVEX `X~` of a memory operand without an SIB byte, and `B~` of a RIP-relative operand and of
an SIB byte without a base, are ignored, after any prefix bytes (R74; spec/93_implementation_defined.md section 1, last
paragraph; spec/91_not_in_source.md N24; assumption 20). -/
def Obligations.IgnoredExtensionBits : Prop :=
  ∀ (pre : List Byte) (b1 b2 p0 p1 p2 modrm sib : Byte) (rest : List Byte), (∀ b ∈ pre, classify b ≠ .other) →
    let vex (b : Byte) (tail : List Byte) := decode (pre ++ 0xC4#8 :: b :: b2 :: 0x16#8 :: modrm :: tail)
    let evex (p : Byte) (tail : List Byte) := decode (pre ++ 0x62#8 :: p :: p1 :: p2 :: 0x16#8 :: modrm :: tail)
    (field modrm 6 2 = 3#2 ∨ field modrm 0 3 ≠ 4#3 → vex (b1 ^^^ 0x40#8) rest = vex b1 rest) ∧
      (field modrm 6 2 = 0#2 ∧ field modrm 0 3 = 5#3 → vex (b1 ^^^ 0x20#8) rest = vex b1 rest) ∧
      (field modrm 6 2 = 0#2 ∧ field modrm 0 3 = 4#3 ∧ field sib 0 3 = 5#3 →
        vex (b1 ^^^ 0x20#8) (sib :: rest) = vex b1 (sib :: rest)) ∧
      (field modrm 6 2 ≠ 3#2 ∧ field modrm 0 3 ≠ 4#3 → evex (p0 ^^^ 0x40#8) rest = evex p0 rest) ∧
      (field modrm 6 2 = 0#2 ∧ field modrm 0 3 = 5#3 → evex (p0 ^^^ 0x20#8) rest = evex p0 rest) ∧
      (field modrm 6 2 = 0#2 ∧ field modrm 0 3 = 4#3 ∧ field sib 0 3 = 5#3 →
        evex (p0 ^^^ 0x20#8) (sib :: rest) = evex p0 (sib :: rest))

/-! ## Fetch, decode and the step -/

/-- When the bytes at the instruction pointer decode to an instruction, the step is its meaning at the same state: `rip`
still names the instruction (R27), and the meaning advances it. -/
def Obligations.StepRunsTheDecodedInstruction : Prop :=
  ∀ (s : State) (i : Instr), s.mode ≠ .prot32 → decode s.fetchBytes = .instr i → step s = exec i s

/-- When the bytes of a well-formed instruction can be fetched at the instruction pointer, the step is its meaning. -/
def Obligations.StepRunsTheEncodedInstruction : Prop :=
  ∀ (s : State) (i : Instr), s.mode ≠ .prot32 → i.wf = true → Fetches s (encode i) → step s = exec i s

/-- R86, R83: VEX.L = 0 in the otherwise matching pattern is #UD, after any prefix bytes; when the encoding is longer than 15
bytes, #UD or #GP(0) (R141 item 2; assumption 11). What ModRM calls for can be fetched: `rm` is read from it. -/
def Obligations.VexL0IsUd : Prop :=
  ∀ (s : State) (pre : List Byte) (b1 b2 : Byte) (rest : List Byte) (reg : BitVec 3) (rm : RmOperand),
    s.mode ≠ .prot32 → s.fetchBytes = pre ++ 0xC4#8 :: b1 :: b2 :: 0x16#8 :: rest →
    (∀ b ∈ pre, classify b ≠ .other) →
    readModRM (!bitOf b1 6) (!bitOf b1 5) rest = some (reg, rm) →
    field b1 0 5 = 0b00010#5 → field b2 0 2 = 0b01#2 → bitOf b2 7 = false → bitOf b2 2 = false →
    (pre.length + 5 + rm.len ≤ 15 → step s = .fault (.ud s.rip)) ∧
      (15 < pre.length + 5 + rm.len → step s = .fault (.ud s.rip) ∨ step s = .fault (.gp0 s.rip))

/-- R87 to R91 (decision D11): VEX.W = 1; EVEX.L'L = 00 or 11; EVEX.b = 1 with a register; EVEX.z = 1 with aaa = 000; the
reserved EVEX bits; after any prefix bytes. Beyond 15 bytes, #UD or #GP(0) (R141 item 2; assumption 11). -/
def Obligations.ReservedFieldsAreUd : Prop :=
  (∀ (s : State) (pre : List Byte) (b1 b2 : Byte) (rest : List Byte) (reg : BitVec 3) (rm : RmOperand),
    s.mode ≠ .prot32 → s.fetchBytes = pre ++ 0xC4#8 :: b1 :: b2 :: 0x16#8 :: rest →
    (∀ b ∈ pre, classify b ≠ .other) →
    readModRM (!bitOf b1 6) (!bitOf b1 5) rest = some (reg, rm) →
    field b1 0 5 = 0b00010#5 → field b2 0 2 = 0b01#2 → bitOf b2 7 = true →
    (pre.length + 5 + rm.len ≤ 15 → step s = .fault (.ud s.rip)) ∧
      (15 < pre.length + 5 + rm.len → step s = .fault (.ud s.rip) ∨ step s = .fault (.gp0 s.rip))) ∧
  ∀ (s : State) (pre : List Byte) (p0 p1 p2 modrm : Byte) (rest : List Byte) (reg : BitVec 3) (rm : RmOperand),
    s.mode ≠ .prot32 → s.fetchBytes = pre ++ 0x62#8 :: p0 :: p1 :: p2 :: 0x16#8 :: modrm :: rest →
    (∀ b ∈ pre, classify b ≠ .other) →
    readModRM (!bitOf p0 6) (!bitOf p0 5) (modrm :: rest) = some (reg, rm) →
    field p0 0 2 = 0b10#2 → field p1 0 2 = 0b01#2 → bitOf p1 7 = false →
    (field p2 5 2 = 0#2 ∨ field p2 5 2 = 3#2 ∨ (bitOf p2 4 = true ∧ field modrm 6 2 = 3#2) ∨
      (bitOf p2 7 = true ∧ field p2 0 3 = 0#3) ∨ field p0 2 2 ≠ 0#2 ∨ bitOf p1 2 = false) →
    (pre.length + 6 + rm.len ≤ 15 → step s = .fault (.ud s.rip)) ∧
      (15 < pre.length + 6 + rm.len → step s = .fault (.ud s.rip) ∨ step s = .fault (.gp0 s.rip))

/-- R61, R131 rows 7 and 8: one of 66, F2, F3, F0, 40..4F among the prefixes of an otherwise legal encoding is #UD; beyond
15 bytes the spec admits #UD or #GP(0) (R141 item 2, U9). -/
def Obligations.IllegalPrefixFaults : Prop :=
  ∀ (s : State) (pre : List Byte) (i : Instr) (rest : List Byte), s.mode ≠ .prot32 → i.encodable = true →
    s.fetchBytes = pre ++ encode i ++ rest →
    (∀ b ∈ pre, classify b ≠ .other) →
    (∃ b ∈ pre, b = 0x66#8 ∨ b = 0xF2#8 ∨ b = 0xF3#8 ∨ b = 0xF0#8 ∨ (0x40#8 ≤ b ∧ b ≤ 0x4F#8)) →
    (pre.length + i.len ≤ 15 → step s = .fault (.ud s.rip)) ∧
      (15 < pre.length + i.len → step s = .fault (.ud s.rip) ∨ step s = .fault (.gp0 s.rip))

/-- R83: an instruction longer than 15 bytes raises #GP(0). Where the state makes its form #UD as well (R131 rows 2 to 6),
#UD or #GP(0) (R141 item 2, 90_conflicts.md C7; assumption 11). -/
def Obligations.OverlongInstructionIsGp : Prop :=
  ∀ (s : State) (i : Instr) (rest : List Byte), s.mode ≠ .prot32 → i.encodable = true → 15 < i.len →
    s.fetchBytes = encode i ++ rest →
    (Enabled s (form i) → step s = .fault (.gp0 s.rip)) ∧
      (¬ Enabled s (form i) → step s = .fault (.ud s.rip) ∨ step s = .fault (.gp0 s.rip))

/-- R92, R62 (decision D12): another first byte (the two-byte VEX prefix `C5` among them), another map, pp or opcode byte,
or EVEX.W = 1, after any prefixes: the machine refuses. -/
def Obligations.OtherInstructionsAreRefused : Prop :=
  ∀ (s : State) (pre post : List Byte), s.mode ≠ .prot32 → s.fetchBytes = pre ++ post →
    (∀ b ∈ pre, classify b ≠ .other) →
    ((∃ e rest, post = e :: rest ∧ classify e = .other ∧ e ≠ 0xC4#8 ∧ e ≠ 0x62#8) ∨
      (∃ b1 b2 op rest, post = 0xC4#8 :: b1 :: b2 :: op :: rest ∧
        (field b1 0 5 ≠ 0b00010#5 ∨ field b2 0 2 ≠ 0b01#2 ∨ op ≠ 0x16#8)) ∨
      ∃ p0 p1 p2 op rest, post = 0x62#8 :: p0 :: p1 :: p2 :: op :: rest ∧
        (field p0 0 2 ≠ 0b10#2 ∨ field p1 0 2 ≠ 0b01#2 ∨ op ≠ 0x16#8 ∨ bitOf p1 7 = true)) →
    step s = .refused .notVpermps

/-- R147, R141 item 1: a byte of the instruction that cannot be fetched. The bytes before it are `bs` and do not make an
instruction yet, be it illegal or over-long. A non-canonical address is #GP(0); one that `Translate` faults is #PF with
I/D = 1 and CR2 the address `Translate` gives, else that of the byte (the model's reading, assumption 25), or #GP(0), also for
#SS(0) (assumption 7). That an instruction byte in device memory is refused is the model's choice (assumption 16; R45 speaks of
the memory operand). -/
def Obligations.FetchFault : Prop :=
  ∀ (s : State) (bs : List Byte), s.mode ≠ .prot32 → bs.length < 2 ^ 64 → Fetches s bs →
    decode bs = .reject .unfinished →
    let a := s.fetchAddr + BitVec.ofNat 64 bs.length
    (s.canonical a = false → step s = .fault (.gp0 s.rip)) ∧
      (∀ code la, s.canonical a = true → s.translate .fetch a = .pageFault code la →
        step s = .fault (.pf s.rip code (la.getD a)) ∧ code.getLsbD 4 = true) ∧
      (s.canonical a = true → s.translate .fetch a = .gp0 ∨ s.translate .fetch a = .ss0 →
        step s = .fault (.gp0 s.rip)) ∧
      (s.canonical a = true → s.translate .fetch a = .device → step s = .refused .deviceMemory)

/-- 32-bit mode is not admitted (decision D1): neither a step nor a meaning runs there. -/
def Obligations.Prot32IsRefused : Prop :=
  ∀ s : State, s.mode = .prot32 →
    step s = .refused .prot32Mode ∧ ∀ i, exec i s = .refused .prot32Mode

/-! ## The computation -/

/-- R103, R104: every destination element is the table element its index field selects, a shift and a truncation; the field
is the index doubleword modulo `KL`, and always in range. -/
def Obligations.PermuteSelectsElements : Prop :=
  ∀ (vl : VecLen) (idx tbl : Vec) (j : Nat), j < vl.kl →
    let w := match vl with | .vl256 => 3 | .vl512 => 4
    let sel := (idx.extractLsb' (32 * j) w).toNat
    sel < vl.kl ∧ sel = (idx.extractLsb' (32 * j) 32).toNat % vl.kl ∧
      elem32 (permute vl idx tbl) j = elem32 tbl sel ∧
      elem32 (permute vl idx tbl) j = (tbl >>> (sel * 32)).setWidth 32

/-- R106, R107, R108: which elements are kept, replaced or zeroed. Only mask bits `0 .. KL-1` are read; zeroing does not
read the old destination. -/
def Obligations.MaskKeepsOrZeroes : Prop :=
  (∀ (vl : VecLen) (tmp old : Vec) (k : Vector Opmask 8) (r : OpmaskReg) (j : Nat), j < vl.kl →
    elem32 (applyMask vl tmp old .noWritemask k) j = elem32 tmp j ∧
      (k[r.index].getLsbD j = true →
        elem32 (applyMask vl tmp old (.merging r) k) j = elem32 tmp j ∧
        elem32 (applyMask vl tmp old (.zeroing r) k) j = elem32 tmp j) ∧
      (k[r.index].getLsbD j = false →
        elem32 (applyMask vl tmp old (.merging r) k) j = elem32 old j ∧
        elem32 (applyMask vl tmp old (.zeroing r) k) j = 0#32)) ∧
  (∀ (vl : VecLen) (tmp old old' : Vec) (k : Vector Opmask 8) (r : OpmaskReg),
    applyMask vl tmp old (.zeroing r) k = applyMask vl tmp old' (.zeroing r) k) ∧
  ∀ (vl : VecLen) (tmp old : Vec) (msk : Masking) (k k' : Vector Opmask 8),
    (∀ (n : Fin 8) (j : Nat), j < vl.kl → k[n].getLsbD j = k'[n].getLsbD j) →
    applyMask vl tmp old msk k = applyMask vl tmp old msk k'

/-- R120(a), (b): identity indices give the table's low `VL` bits; equal indices give one element everywhere. -/
def Obligations.IdentityAndSplat : Prop :=
  ∀ (vl : VecLen) (idx tbl : Vec),
    ((∀ j < vl.kl, indexOf vl idx j = j) → permute vl idx tbl = tbl &&& BitVec.ofNat 512 (2 ^ vl.bits - 1)) ∧
      ∀ c, (∀ j < vl.kl, indexOf vl idx j = c) → permute vl idx tbl = broadcast vl (elem32 tbl c)

/-- R120(c): permuting twice is permuting once by the composed indices. -/
def Obligations.PermuteComposes : Prop :=
  ∀ (vl : VecLen) (i1 i2 i3 tbl : Vec),
    (∀ j < vl.kl, indexOf vl i3 j = indexOf vl i1 (indexOf vl i2 j)) →
    permute vl i2 (permute vl i1 tbl) = permute vl i3 tbl

/-- R120(d): indices equal modulo `KL` give the same result; (e): every element of the result is a table element. -/
def Obligations.IndexModuloKl : Prop :=
  ∀ (vl : VecLen) (i1 i2 tbl : Vec),
    ((∀ j < vl.kl, (elem32 i1 j).toNat % vl.kl = (elem32 i2 j).toNat % vl.kl) → permute vl i1 tbl = permute vl i2 tbl) ∧
      ∀ j < vl.kl, ∃ c < vl.kl, elem32 (permute vl i1 tbl) j = elem32 tbl c

/-! ## The three forms complete, and what they leave -/

/-- R100: form VEX256 completes, with register and memory tables; bits `MAXVL-1:256` become 0 (R110). -/
def Obligations.Vex256Completes : Prop :=
  ∀ (ps : List LegacyPrefix) (d s1 : BitVec 4) (tbl : VexTable) (s : State) (T : Nat → Elem),
    Ready s .vex256 → TableIs s .vex256 ps (Instr.vpermpsVex256 ps d s1 tbl).len T tbl.widen →
    ∃ t, exec (.vpermpsVex256 ps d s1 tbl) s = .next t ∧
      (∀ j < 8, elem32 (t.readV (d.setWidth 5)) j =
        T ((s.readV (s1.setWidth 5)).extractLsb' (32 * j) 3).toNat) ∧
      t.readV (d.setWidth 5) >>> 256 = 0#512 ∧
      Frame s t (d.setWidth 5) (Instr.vpermpsVex256 ps d s1 tbl).len

/-- R101: form EVEX256 completes, with register, memory and broadcast tables and every writemask; bits `MAXVL-1:256` become
0 under every mask (R110). -/
def Obligations.Evex256Completes : Prop :=
  ∀ (ps : List LegacyPrefix) (d s1 : BitVec 5) (msk : Masking) (tbl : EvexTable) (s : State) (T : Nat → Elem),
    Ready s .evex256 → TableIs s .evex256 ps (Instr.vpermpsEvex256 ps d s1 msk tbl).len T tbl →
    ∃ t, exec (.vpermpsEvex256 ps d s1 msk tbl) s = .next t ∧
      (∀ j < 8, elem32 (t.readV d) j =
        masked s msk j (T ((s.readV s1).extractLsb' (32 * j) 3).toNat) (elem32 (s.readV d) j)) ∧
      t.readV d >>> 256 = 0#512 ∧
      Frame s t d (Instr.vpermpsEvex256 ps d s1 msk tbl).len

/-- R102: form EVEX512 completes, with register, memory and broadcast tables and every writemask. -/
def Obligations.Evex512Completes : Prop :=
  ∀ (ps : List LegacyPrefix) (d s1 : BitVec 5) (msk : Masking) (tbl : EvexTable) (s : State) (T : Nat → Elem),
    Ready s .evex512 → TableIs s .evex512 ps (Instr.vpermpsEvex512 ps d s1 msk tbl).len T tbl →
    ∃ t, exec (.vpermpsEvex512 ps d s1 msk tbl) s = .next t ∧
      (∀ j < 16, elem32 (t.readV d) j =
        masked s msk j (T ((s.readV s1).extractLsb' (32 * j) 4).toNat) (elem32 (s.readV d) j)) ∧
      Frame s t d (Instr.vpermpsEvex512 ps d s1 msk tbl).len

/-- The frame of all three forms, whenever exec answers a next state. -/
def Obligations.CompletedFrame : Prop :=
  ∀ (i : Instr) (s t : State), exec i s = .next t → Frame s t (dest i) i.len

/-- R20, column "written by VPERMPS": over any number of steps nothing but the vector registers and `rip` changes (R25,
R28, R29, R51, D3). The model's own counter aside. -/
def Obligations.RunChangesOnlyVectors : Prop :=
  ∀ (n : Nat) (s t : State), Host.Core.run core n s = .next t →
    t.k = s.k ∧ t.g = s.g ∧ (∀ a, t.mem.get a = s.mem.get a) ∧ t.regions = s.regions ∧ t.rflags = s.rflags ∧
      t.mxcsr = s.mxcsr ∧ t.cr0 = s.cr0 ∧ t.cr4 = s.cr4 ∧ t.xcr0 = s.xcr0 ∧ t.efer = s.efer ∧ t.csL = s.csL ∧
      t.cpl = s.cpl ∧ t.csBase = s.csBase ∧ t.fsBase = s.fsBase ∧ t.gsBase = s.gsBase ∧ t.cfg = s.cfg

/-- R110: after every completed VPERMPS, with every mask, the bits of the destination from `VL` on are zero. -/
def Obligations.UpperBitsAreZeroed : Prop :=
  ∀ (i : Instr) (s t : State), exec i s = .next t → t.readV (dest i) >>> (form i).vl.bits = 0#512

/-- R43: of memory an execution reads the 4, 32 or 64 bytes of its memory operand, none for a register, and writes none:
with another memory for which `Translate` finds the same in those bytes it does the same. -/
def Obligations.ReadsOnlyTheOperandBytes : Prop :=
  ∀ (i : Instr) (s : State) (m : Memory),
    (∀ o, memOperand i = some o → ∀ k < operandBytes i o,
      { s with mem := m }.translate .read (byteAddr s i o k) = s.translate .read (byteAddr s i o k)) →
    exec i { s with mem := m } = mapNext (fun t => { t with mem := m }) (exec i s) ∧
      ∀ t, exec i s = .next t → t.mem = s.mem

/-- R24: of the opmask registers an execution reads bits `KL-1:0` of the one its writemask names, never `K[0]`, and writes
none. -/
def Obligations.ReadsOnlyTheMaskBits : Prop :=
  ∀ (i : Instr) (s : State) (k : Vector Opmask 8),
    (∀ (r : OpmaskReg) (j : Nat), j < (form i).vl.kl → writemaskOf i = some r →
      k[r.index].getLsbD j = s.k[r.index].getLsbD j) →
    exec i { s with k := k } = mapNext (fun t => { t with k := k }) (exec i s)

/-- R119, R150: where `Translate` answers alike at every privilege level (the model's table, assumption 7) and no alignment is
checked, an instruction that completes at one privilege level completes at every other with the same result. -/
def Obligations.NotPrivileged : Prop :=
  ∀ (i : Instr) (s t : State) (c : BitVec 2), (∀ r ∈ s.regions, r.levels = .every) → s.cfg.acCheck = false →
    exec i s = .next t → exec i { s with cpl := c } = .next { t with cpl := c }

/-- R120(f): a writemask whose bits `KL-1:0` are zero: zeroing clears the destination, merging keeps its low `VL` bits. -/
def Obligations.ZeroWritemask : Prop :=
  ∀ (ps : List LegacyPrefix) (d s1 : BitVec 5) (r : OpmaskReg) (tbl : EvexTable) (s t : State),
    ((∀ j < 8, s.k[r.index].getLsbD j = false) →
      (exec (.vpermpsEvex256 ps d s1 (.zeroing r) tbl) s = .next t → t.readV d = 0#512) ∧
      (exec (.vpermpsEvex256 ps d s1 (.merging r) tbl) s = .next t →
        t.readV d = ((s.readV d).setWidth 256).setWidth 512)) ∧
    ((∀ j < 16, s.k[r.index].getLsbD j = false) →
      (exec (.vpermpsEvex512 ps d s1 (.zeroing r) tbl) s = .next t → t.readV d = 0#512) ∧
      (exec (.vpermpsEvex512 ps d s1 (.merging r) tbl) s = .next t → t.readV d = s.readV d))

/-- R120(g): VEX256 and EVEX256 without a writemask and with the same registers make the same change, `len` apart. -/
def Obligations.VexAndEvexAgree : Prop :=
  ∀ (ps : List LegacyPrefix) (d s1 n : BitVec 4) (s : State), Ready s .vex256 → Ready s .evex256 →
    ∃ t u, exec (.vpermpsVex256 ps d s1 (.reg n)) s = .next t ∧
      exec (.vpermpsEvex256 ps (d.setWidth 5) (s1.setWidth 5) .noWritemask (.reg (n.setWidth 5))) s = .next u ∧
      t = { u with rip := t.rip } ∧ t.rip = s.rip + BitVec.ofNat 64 (ps.length + 5) ∧
      u.rip = s.rip + BitVec.ofNat 64 (ps.length + 6)

/-- R29, R112, R132 and R28: MXCSR and every RFLAGS bit but VM and AC have no influence on the outcome, and are kept. -/
def Obligations.MxcsrAndFlagsNotRead : Prop :=
  ∀ (i : Instr) (s : State) (m : BitVec 32) (r : BitVec 64), r.getLsbD 17 = s.rflags.getLsbD 17 →
    r.getLsbD 18 = s.rflags.getLsbD 18 →
    exec i { s with mxcsr := m, rflags := r } = mapNext (fun t => { t with mxcsr := m, rflags := r }) (exec i s)

/-- R96: the three 512-bit intrinsics are the register forms of EVEX512 without a mask, merging and zeroing. -/
def Obligations.Intrinsics512 : Prop :=
  ∀ (d s1 n : BitVec 5) (r : OpmaskReg) (s : State), Ready s .evex512 →
    let k := s.k[r.index].setWidth 16
    (∃ t, exec (.vpermpsEvex512 [] d s1 .noWritemask (.reg n)) s = .next t ∧
      t.readV d = mm512_permutexvar_ps (s.readV s1) (s.readV n)) ∧
    (∃ t, exec (.vpermpsEvex512 [] d s1 (.merging r) (.reg n)) s = .next t ∧
      t.readV d = mm512_mask_permutexvar_ps (s.readV d) k (s.readV s1) (s.readV n)) ∧
    ∃ t, exec (.vpermpsEvex512 [] d s1 (.zeroing r) (.reg n)) s = .next t ∧
      t.readV d = mm512_maskz_permutexvar_ps k (s.readV s1) (s.readV n)

/-- R96: the three 256-bit intrinsics are the register forms of EVEX256. -/
def Obligations.Intrinsics256 : Prop :=
  ∀ (d s1 n : BitVec 5) (r : OpmaskReg) (s : State), Ready s .evex256 →
    let k := s.k[r.index].setWidth 8
    let y (x : Vec) : BitVec 256 := x.setWidth 256
    (∃ t, exec (.vpermpsEvex256 [] d s1 .noWritemask (.reg n)) s = .next t ∧
      y (t.readV d) = mm256_permutexvar_ps (y (s.readV s1)) (y (s.readV n))) ∧
    (∃ t, exec (.vpermpsEvex256 [] d s1 (.merging r) (.reg n)) s = .next t ∧
      y (t.readV d) = mm256_mask_permutexvar_ps (y (s.readV d)) k (y (s.readV s1)) (y (s.readV n))) ∧
    ∃ t, exec (.vpermpsEvex256 [] d s1 (.zeroing r) (.reg n)) s = .next t ∧
      y (t.readV d) = mm256_maskz_permutexvar_ps k (y (s.readV s1)) (y (s.readV n))

/-! ## Addresses -/

/-- R74, R75: the linear address of each operand shape with every displacement, 64-bit addresses, no segment prefix. -/
def Obligations.LinearAddressShapes : Prop :=
  ∀ (s : State) (f : Form) (bc : Bool) (len : Nat) (b index : GReg) (sc : BitVec 2) (disp : Disp) (v32 : BitVec 32),
    let n : BitVec 64 := match f, bc with
      | .vex256, _ => 1#64
      | .evex256, false => 32#64
      | .evex512, false => 64#64
      | .evex256, true => 4#64
      | .evex512, true => 4#64
    let d : BitVec 64 := match disp with
      | .none => 0#64
      | .disp8 v => v.signExtend 64 * n
      | .disp32 v => v.signExtend 64
    s.linearAddress f [] bc len (.ripRel v32) = s.rip + BitVec.ofNat 64 len + v32.signExtend 64 ∧
      s.linearAddress f [] bc len (.base b disp) = s.readG b + d ∧
      (index ≠ 4#4 → s.linearAddress f [] bc len (.sib b index sc disp) =
        s.readG b + s.readG index <<< sc.toNat + d) ∧
      s.linearAddress f [] bc len (.sib b 4#4 sc disp) = s.readG b + d ∧
      (index ≠ 4#4 → s.linearAddress f [] bc len (.sibNoBase index sc v32) =
        s.readG index <<< sc.toNat + v32.signExtend 64) ∧
      s.linearAddress f [] bc len (.sibNoBase 4#4 sc v32) = v32.signExtend 64

/-- R61, R74: with several segment prefixes the last one wins, FS and GS add their base, `67` names no segment; without one
the access goes through SS exactly when the base register is rsp or rbp. -/
def Obligations.SegmentSelection : Prop :=
  ∀ (s : State) (f : Form) (bc : Bool) (len : Nat) (ps : List LegacyPrefix) (m : MemRef),
    segmentOf (ps ++ [.fs]) m = .fs ∧ segmentOf (ps ++ [.gs]) m = .gs ∧ segmentOf (ps ++ [.ss]) m = .ss ∧
      segmentOf (ps ++ [.ds]) m = .ds ∧ segmentOf (ps ++ [.es]) m = .ds ∧ segmentOf (ps ++ [.cs]) m = .ds ∧
      segmentOf (ps ++ [.addr32]) m = segmentOf ps m ∧
      (segmentOf [] m = .ss ↔ m.baseReg = some 4#4 ∨ m.baseReg = some 5#4) ∧
      s.linearAddress f (ps ++ [.fs]) bc len m = s.linearAddress f (ps ++ [.ds]) bc len m + s.fsBase ∧
      s.linearAddress f (ps ++ [.gs]) bc len m = s.linearAddress f (ps ++ [.ds]) bc len m + s.gsBase

/-- R74, prefix 67: the effective address is the zero-extended low 32 bits of the one without the prefix, and FS and GS still
add their base; it depends on the low 32 bits of the registers and of `rip` only. -/
def Obligations.AddressSizePrefix : Prop :=
  ∀ (s t : State) (f : Form) (bc : Bool) (len : Nat) (ps : List LegacyPrefix) (m : MemRef), LegacyPrefix.addr32 ∈ ps →
    let base := baseOf s (segmentOf ps m)
    let wide := s.linearAddress f (ps.filter fun p => p != .addr32) bc len m - base
    s.linearAddress f ps bc len m = (wide.setWidth 32).setWidth 64 + base ∧
      ((∀ n, (t.readG n).setWidth 32 = (s.readG n).setWidth 32) → t.rip.setWidth 32 = s.rip.setWidth 32 →
        t.fsBase = s.fsBase → t.gsBase = s.gsBase → t.linearAddress f ps bc len m = s.linearAddress f ps bc len m)

/-- R46: canonical means that bits 63:`LA_BITS` equal bit `LA_BITS-1`; `LA_BITS` is 57 with CR4.LA57, else 48 (R30). -/
def Obligations.CanonicalAddress : Prop :=
  ∀ (s : State) (a : Quad),
    (s.canonical a = true ↔
      ∀ k, (if s.cr4.getLsbD 12 then 57 else 48) ≤ k → k < 64 →
        a.getLsbD k = a.getLsbD (if s.cr4.getLsbD 12 then 56 else 47))

/-- R75 and the encodings E9, E12, E19, E22 to E25 (the assembler's choice, assumption 26): the field chosen has the value it was
given, and it is the shortest: none for zero unless one is needed, else 8 bits where some 8-bit field has the value, else 32. -/
def Obligations.ShortestDisplacement : Prop :=
  ∀ (f : Form) (bc needed : Bool) (v : BitVec 32),
    let d := Disp.shortest (f.dispScale bc).toNat needed v
    let fits := ∃ b : BitVec 8, b.signExtend 64 * f.dispScale bc = v.signExtend 64
    d.value (f.dispScale bc) = v.signExtend 64 ∧
      (v = 0#32 ∧ needed = false → d = .none) ∧
      (¬ (v = 0#32 ∧ needed = false) → fits → ∃ b, d = .disp8 b) ∧
      (¬ fits → d = .disp32 v)

/-- R93: with `ymm` registers 0 to 15, no mask and no broadcast the assembler emits VEX256, with other `ymm` operands EVEX256,
with `zmm` operands EVEX512; what it emits for an encodable operand is encodable. -/
def Obligations.AssemblerChoosesForm : Prop :=
  ∀ (vl : VecLen) (ps : List LegacyPrefix) (d s1 : BitVec 5) (msk : Masking) (tbl : EvexTable),
    let plain := msk = .noWritemask ∧ d.toNat < 16 ∧ s1.toNat < 16 ∧
      match tbl with
      | .reg n => n.toNat < 16
      | .mem _ => True
      | .bcst _ => False
    (vl = .vl512 → form (assemble vl ps d s1 msk tbl) = .evex512) ∧
      (vl = .vl256 → plain → form (assemble vl ps d s1 msk tbl) = .vex256) ∧
      (vl = .vl256 → ¬ plain → form (assemble vl ps d s1 msk tbl) = .evex256) ∧
      (tbl.wf = true → (assemble vl ps d s1 msk tbl).encodable = true)

/-! ## Exceptions -/

/-- R130: vectors and error codes; R142: what is recorded. -/
def Obligations.ExceptionVectors : Prop :=
  ∀ (r la : Quad) (code : BitVec 32),
    (Fault.ud r).vector = 6 ∧ (Fault.nm r).vector = 7 ∧ (Fault.ss0 r).vector = 12 ∧ (Fault.gp0 r).vector = 13 ∧
      (Fault.pf r code la).vector = 14 ∧ (Fault.ac0 r).vector = 17 ∧ (Fault.ud r).errorCode = none ∧
      (Fault.nm r).errorCode = none ∧ (Fault.ss0 r).errorCode = some 0#32 ∧ (Fault.gp0 r).errorCode = some 0#32 ∧
      (Fault.pf r code la).errorCode = some code ∧ (Fault.ac0 r).errorCode = some 0#32 ∧
      (Fault.pf r code la).cr2 = some la

/-- R140, R142: every fault of a meaning and of a step records the `rip` of the faulting instruction. -/
def Obligations.FaultsRecordTheInstruction : Prop :=
  ∀ (s : State) (f : Fault), ((∃ i, exec i s = .fault f) ∨ step s = .fault f) → f.savedRip = s.rip

/-- R131 rows 2 to 6: in real-address or virtual-8086 mode, or with a feature flag, CR4.OSXSAVE or an XCR0 bit missing,
every operand form raises #UD. -/
def Obligations.DisabledFormsAreUd : Prop :=
  ∀ (i : Instr) (s : State),
    (s.mode = .realAddress ∨ s.mode = .virtual8086 ∨ s.mode = .long64 ∧
      (s.cr4.getLsbD 18 = false ∨ s.xcr0.getLsbD 1 = false ∨ s.xcr0.getLsbD 2 = false ∨
        match form i with
        | .vex256 => s.cfg.hasAvx2 = false
        | .evex256 => s.cfg.hasAvx512f = false ∨ s.cfg.hasAvx512vl = false ∨
            s.xcr0.getLsbD 5 = false ∨ s.xcr0.getLsbD 6 = false ∨ s.xcr0.getLsbD 7 = false
        | .evex512 => s.cfg.hasAvx512f = false ∨
            s.xcr0.getLsbD 5 = false ∨ s.xcr0.getLsbD 6 = false ∨ s.xcr0.getLsbD 7 = false)) →
    exec i s = .fault (.ud s.rip)

/-- R133: CR0.TS = 1 raises #NM (vector 7, no error code) after the #UD conditions and before any memory access: whatever
the operand. -/
def Obligations.TaskSwitchedIsNm : Prop :=
  ∀ (i : Instr) (s : State), s.mode = .long64 → s.hasForm (form i) = true → s.osEnabled (form i) = true →
    s.cr0.getLsbD 3 = true →
    exec i s = .fault (.nm s.rip) ∧ (Fault.nm s.rip).vector = 7 ∧ (Fault.nm s.rip).errorCode = none

/-- R135 (a), R136, D26: a memory operand with any byte at a non-canonical address raises #SS(0) through SS and #GP(0)
otherwise, whatever else is wrong with its bytes. That this comes before #AC(0) too is the model's choice (assumption 9). -/
def Obligations.NonCanonicalOperandFaults : Prop :=
  ∀ (i : Instr) (s : State) (o : List LegacyPrefix × MemRef × Bool) (k : Nat),
    Ready s (form i) → memOperand i = some o → k < operandBytes i o → s.canonical (byteAddr s i o k) = false →
    (segmentOf o.1 o.2.1 = .ss → exec i s = .fault (.ss0 s.rip)) ∧
      (segmentOf o.1 o.2.1 ≠ .ss → exec i s = .fault (.gp0 s.rip))

/-- R134: when the bytes of the operand are canonical, none is device memory or answered #GP(0) or #SS(0) by `Translate`, and
no alignment check applies, a byte that `Translate` faults raises #PF. CR2 is the operand address `Translate` gives for a
failing byte, or, where it gives none in the operand, an operand address in the 4096-byte page of a failing byte (the page size
is the model's choice, assumption 8). The code is that byte's: W/R = 0, U/S = (CPL = 3), I/D = 0. -/
def Obligations.OperandPageFault : Prop :=
  ∀ (i : Instr) (s : State) (o : List LegacyPrefix × MemRef × Bool) (k : Nat),
    Ready s (form i) → memOperand i = some o → k < operandBytes i o →
    (∀ j < operandBytes i o, s.canonical (byteAddr s i o j) = true ∧ s.translate .read (byteAddr s i o j) ≠ .device ∧
      s.translate .read (byteAddr s i o j) ≠ .gp0 ∧ s.translate .read (byteAddr s i o j) ≠ .ss0) →
    (o.2.2 = true → s.mayCheckAlignment (operandAddr s i o) = false) →
    (∃ code la, s.translate .read (byteAddr s i o k) = .pageFault code la) →
    ∃ c j code la, c < operandBytes i o ∧ j < operandBytes i o ∧
      s.translate .read (byteAddr s i o j) = .pageFault code la ∧
      exec i s = .fault (.pf s.rip code (byteAddr s i o c)) ∧
      (la = some (byteAddr s i o c) ∨
        (∀ l, la = some l → ∀ x < operandBytes i o, byteAddr s i o x ≠ l) ∧
          (byteAddr s i o c).toNat / 4096 = (byteAddr s i o j).toNat / 4096) ∧
      code.getLsbD 1 = false ∧ code.getLsbD 2 = decide (s.cpl = 3#2) ∧ code.getLsbD 4 = false

/-- `Translate` (R47; the model's table, assumptions 6, 7 and 10). `applies` is a region that covers the address and answers this
access at this privilege level. Where none applies, a mapped byte is translated and another is not present (P = 0). Else the
first that applies answers: the byte at the location it gives, a page fault with the given P bit and address and the W/R, U/S
and I/D bits of R134 and R147, #GP(0), #SS(0), or device memory. -/
def Obligations.TranslateAnswers : Prop :=
  ∀ (s : State) (acc : Access) (a : Quad),
    let applies (r : Region) : Prop := r.base ≤ a.toNat ∧ a.toNat < r.base + r.size ∧
      (r.access = none ∨ r.access = some acc) ∧
      match r.levels with
      | .every => True
      | .user => s.cpl = 3#2
      | .supervisor => s.cpl ≠ 3#2
    let byteAt (loc : Quad) (v : Verdict) : Prop :=
      (∀ b, s.mem.get loc.toNat = some b → v = .ok b) ∧
        (s.mem.get loc.toNat = none → ∃ code, v = .pageFault code none ∧ code.getLsbD 0 = false ∧
          code.getLsbD 1 = false ∧ code.getLsbD 2 = decide (s.cpl = 3#2) ∧ code.getLsbD 4 = decide (acc = .fetch))
    ((∀ r ∈ s.regions, ¬ applies r) → byteAt a (s.translate acc a)) ∧
      ∀ pre r post, s.regions = pre ++ r :: post → (∀ q ∈ pre, ¬ applies q) → applies r →
        (∀ loc, r.answer = .location loc → byteAt (loc + (a - BitVec.ofNat 64 r.base)) (s.translate acc a)) ∧
        (∀ code la, r.answer = .pageFault code la → ∃ code', s.translate acc a = .pageFault code' la ∧
          code'.getLsbD 0 = code.getLsbD 0 ∧ code'.getLsbD 1 = false ∧ code'.getLsbD 2 = decide (s.cpl = 3#2) ∧
          code'.getLsbD 4 = decide (acc = .fetch)) ∧
        (r.answer = .gp0 → s.translate acc a = .gp0) ∧
        (r.answer = .ss0 → s.translate acc a = .ss0) ∧
        (r.answer = .device → s.translate acc a = .device)

/-- R47, R141 item 3: where `Translate` answers #GP(0) or #SS(0) for a byte of an operand whose bytes are canonical and none
device memory, that fault is raised, before any page fault. R141 places #AC(0) relative to #PF only: that the fault comes before
#AC(0) too, and that either is raised where `Translate` answers both, is the model's choice (assumption 9). -/
def Obligations.TranslateAddressFaults : Prop :=
  ∀ (i : Instr) (s : State) (o : List LegacyPrefix × MemRef × Bool) (k : Nat),
    Ready s (form i) → memOperand i = some o → k < operandBytes i o →
    (∀ j < operandBytes i o, s.canonical (byteAddr s i o j) = true ∧ s.translate .read (byteAddr s i o j) ≠ .device) →
    let gp := ∃ j < operandBytes i o, s.translate .read (byteAddr s i o j) = .gp0
    let ss := ∃ j < operandBytes i o, s.translate .read (byteAddr s i o j) = .ss0
    (s.translate .read (byteAddr s i o k) = .gp0 ∧ ¬ ss → exec i s = .fault (.gp0 s.rip)) ∧
      (s.translate .read (byteAddr s i o k) = .ss0 ∧ ¬ gp → exec i s = .fault (.ss0 s.rip)) ∧
      (gp ∧ ss → exec i s = .fault (.gp0 s.rip) ∨ exec i s = .fault (.ss0 s.rip))

/-- R45, D7 (assumption 16): a memory operand in device memory is refused. -/
def Obligations.DeviceOperandIsRefused : Prop :=
  ∀ (i : Instr) (s : State) (o : List LegacyPrefix × MemRef × Bool) (k : Nat),
    Ready s (form i) → memOperand i = some o → k < operandBytes i o →
    (∀ j < operandBytes i o, s.canonical (byteAddr s i o j) = true) →
    s.translate .read (byteAddr s i o k) = .device → exec i s = .refused .deviceMemory

/-- R137, R141 item 3, D6, U15, U17 (assumption 12): a misaligned broadcast read with `AC_CHECK`, CR0.AM, RFLAGS.AC and
CPL = 3 either does what it does without the parameter or raises #AC(0). #AC(0) is not raised in any other case: not where an
operand byte is non-canonical (#SS / #GP come first, the model's choice, assumption 9), and never by a full memory operand or a
register. -/
def Obligations.AlignmentCheckIsAChoice : Prop :=
  (∀ (i : Instr) (s : State) (o : List LegacyPrefix × MemRef × Bool),
    Ready s (form i) → memOperand i = some o → o.2.2 = true →
    (exec i s = .fault (.ac0 s.rip) ∨
      exec i s = mapNext (fun t => { t with cfg := s.cfg }) (exec i { s with cfg := { s.cfg with acCheck := false } })) ∧
    ((s.cfg.acCheck = false ∨ s.cr0.getLsbD 18 = false ∨ s.rflags.getLsbD 18 = false ∨ s.cpl ≠ 3#2 ∨
        (operandAddr s i o).toNat % 4 = 0 ∨ ∃ j < 4, s.canonical (byteAddr s i o j) = false) →
      exec i s ≠ .fault (.ac0 s.rip))) ∧
  ∀ (i : Instr) (s : State), (memOperand i = none ∨ ∃ ps m, memOperand i = some (ps, m, false)) →
    ∀ r, exec i s ≠ .fault (.ac0 r)

/-- R44, R109: the writemask never suppresses the read or its faults: two executions that differ in the writemask stop alike
or complete alike. -/
def Obligations.MaskNeverSuppressesFaults : Prop :=
  ∀ (ps : List LegacyPrefix) (d s1 : BitVec 5) (m1 m2 : Masking) (tbl : EvexTable) (s : State),
    (∀ f, exec (.vpermpsEvex256 ps d s1 m1 tbl) s = .fault f ↔ exec (.vpermpsEvex256 ps d s1 m2 tbl) s = .fault f) ∧
      (∀ f, exec (.vpermpsEvex512 ps d s1 m1 tbl) s = .fault f ↔ exec (.vpermpsEvex512 ps d s1 m2 tbl) s = .fault f) ∧
      ((∃ t, exec (.vpermpsEvex256 ps d s1 m1 tbl) s = .next t) ↔
        ∃ t, exec (.vpermpsEvex256 ps d s1 m2 tbl) s = .next t) ∧
      ((∃ t, exec (.vpermpsEvex512 ps d s1 m1 tbl) s = .next t) ↔
        ∃ t, exec (.vpermpsEvex512 ps d s1 m2 tbl) s = .next t)

/-- R140, R164, U24: a run is at its end exactly where `rip = ripEnd`; until then it goes on by the step, and a fault or a
refusal of the step ends it. Its final state is one that steps lead to and has `rip = ripEnd`; its fault is that of a step at
another `rip`, which the fault records, so a faulted state is never final. A run that has ended stays ended: more steps change
nothing. That a refusal ends a run as well is the model's choice (assumption 28). -/
def Obligations.EndedRunStaysEnded : Prop :=
  ∀ (ripEnd : Quad) (n k : Nat) (s : State),
    (∀ o, runTo ripEnd n s = some o → runTo ripEnd (n + k) s = some o) ∧
      (∀ t, runTo ripEnd n s = some (.next t) → t.rip = ripEnd ∧ ∃ m ≤ n, Host.Core.run core m s = .next t) ∧
      (∀ f, runTo ripEnd n s = some (.fault f) → f.savedRip ≠ ripEnd ∧
        ∃ m < n, ∃ u, Host.Core.run core m s = .next u ∧ u.rip ≠ ripEnd ∧ step u = .fault f) ∧
      (s.rip = ripEnd → runTo ripEnd n s = some (.next s)) ∧
      (s.rip ≠ ripEnd → runTo ripEnd 0 s = none ∧
        (∀ t, step s = .next t → runTo ripEnd (n + 1) s = runTo ripEnd n t) ∧
        (∀ f, step s = .fault f → runTo ripEnd (n + 1) s = some (.fault f)) ∧
        ∀ r, step s = .refused r → runTo ripEnd (n + 1) s = some (.refused r))
end

