-- ==== Sys2Proof/Laws/Decode.lean ====
section
/-! SUPPORT. The parts of "decode of encode": each field the encoder writes is the field the decoder reads. -/

namespace Sys2Proof

/-! ## Prefixes -/

@[simp] theorem classify_byte (p : LegacyPrefix) : classify p.byte = .accepted p := by cases p <;> decide

theorem scanPrefixes_other {e : Byte} (he : classify e = .other) (rest : List Byte) :
    scanPrefixes (e :: rest) = (⟨[], 0, false⟩, e :: rest) := by
  simp [scanPrefixes, he]

theorem scanPrefixes_map (ps : List LegacyPrefix) (rest : List Byte) :
    scanPrefixes (ps.map LegacyPrefix.byte ++ rest) =
      (⟨ps ++ (scanPrefixes rest).1.accepted, ps.length + (scanPrefixes rest).1.count, (scanPrefixes rest).1.bad⟩,
        (scanPrefixes rest).2) := by
  induction ps with
  | nil => simp
  | cons p ps ih =>
    simp [scanPrefixes, ih]
    omega

theorem classify_escape : classify 0xC4#8 = .other ∧ classify 0x62#8 = .other := by decide

/-! ## Bytes -/

theorem modrmByte_fields : ∀ (m : BitVec 2) (r n : BitVec 3),
    field (modrmByte m r n) 6 2 = m ∧ field (modrmByte m r n) 3 3 = r ∧ field (modrmByte m r n) 0 3 = n := by
  decide

theorem sibByte_fields : ∀ (m : BitVec 2) (r n : BitVec 3),
    field (sibByte m r n) 6 2 = m ∧ field (sibByte m r n) 3 3 = r ∧ field (sibByte m r n) 0 3 = n := by
  decide

theorem vexByte1_fields : ∀ r x b : Bool,
    let p : Byte := stored r ++ stored x ++ stored b ++ 0b00010#5
    field p 0 5 = 0b00010#5 ∧ (!bitOf p 7) = r ∧ (!bitOf p 6) = x ∧ (!bitOf p 5) = b := by
  decide

theorem vexByte2_fields : ∀ s1 : BitVec 4,
    let p : Byte := 0#1 ++ ~~~s1 ++ 0b101#3
    field p 0 2 = 0b01#2 ∧ bitOf p 2 = true ∧ bitOf p 7 = false ∧ ~~~field p 3 4 = s1 := by
  decide

theorem evexByte0_fields : ∀ r x b r' : Bool,
    let p : Byte := stored r ++ stored x ++ stored b ++ stored r' ++ 0b0010#4
    field p 0 2 = 0b10#2 ∧ field p 2 2 = 0#2 ∧ (!bitOf p 7) = r ∧ (!bitOf p 6) = x ∧ (!bitOf p 5) = b ∧
      (!bitOf p 4) = r' := by
  decide

theorem evexByte2_fields : ∀ (z b v' : Bool) (ll : BitVec 2) (aaa : BitVec 3),
    let p : Byte := BitVec.ofBool z ++ ll ++ BitVec.ofBool b ++ stored v' ++ aaa
    bitOf p 7 = z ∧ field p 5 2 = ll ∧ bitOf p 4 = b ∧ (!bitOf p 3) = v' ∧ field p 0 3 = aaa := by
  decide

/-! ## Register numbers and masks -/

theorem extend_reg4 : ∀ d : BitVec 4, extend (d.getLsbD 3) (d.setWidth 3) = d := by decide

theorem extend_reg5 : ∀ d : BitVec 5, extend (d.getLsbD 4) (extend (d.getLsbD 3) (d.setWidth 3)) = d := by decide

@[simp] theorem extend_bits4 (d : BitVec 4) : extend d[3] (d.setWidth 3) = d := extend_reg4 d

@[simp] theorem extend_bits5 (d : BitVec 5) : extend d[4] (extend d[3] (d.setWidth 3)) = d := extend_reg5 d

theorem extend_vvvv : ∀ d : BitVec 5, extend (d.getLsbD 4) (d.setWidth 4) = d := by decide

theorem extend_greg (b : GReg) : extend b.hi b.low3 = b := extend_reg4 b

@[simp] theorem maskingOf_bits (msk : Masking) : maskingOf msk.zBit msk.aaa = some msk := by
  cases msk with
  | noWritemask => rfl
  | merging k => cases k <;> rfl
  | zeroing k => cases k <;> rfl

/-! ## Displacements and operand 3 -/

theorem le32_bytes (v : BitVec 32) :
    le32 (v.extractLsb' 0 8) (v.extractLsb' 8 8) (v.extractLsb' 16 8) (v.extractLsb' 24 8) = v := by
  refine BitVec.eq_of_getLsbD_eq fun i hi => ?_
  simp only [le32, BitVec.getLsbD_append, BitVec.getLsbD_extractLsb']
  rcases (by omega : i < 8 ∨ (8 ≤ i ∧ i < 16) ∨ (16 ≤ i ∧ i < 24) ∨ (24 ≤ i ∧ i < 32)) with h | h | h | h
  · simp [h]
  · simp [show ¬ i < 8 by omega, show i - 8 < 8 by omega, show 8 + (i - 8) = i by omega]
  · simp [show ¬ i < 8 by omega, show ¬ i - 8 < 8 by omega, show i - 8 - 8 < 8 by omega,
      show 16 + (i - 8 - 8) = i by omega]
  · simp [show ¬ i < 8 by omega, show ¬ i - 8 < 8 by omega, show ¬ i - 8 - 8 < 8 by omega,
      show i - 8 - 8 - 8 < 8 by omega, show 24 + (i - 8 - 8 - 8) = i by omega]

@[simp] theorem readDisp32_bytes (v : BitVec 32) (rest : List Byte) :
    readDisp32 (le32Bytes v ++ rest) = some v := by
  simp [le32Bytes, readDisp32, le32_bytes]

@[simp] theorem readDisp_bytes (disp : Disp) (rest : List Byte) :
    readDisp disp.mod (disp.bytes ++ rest) = some disp := by
  cases disp <;> simp [readDisp, Disp.mod, Disp.bytes]

theorem Disp.mod_ne_three (disp : Disp) : disp.mod ≠ 3#2 := by cases disp <;> simp [Disp.mod]

theorem Disp.mod_eq_zero (disp : Disp) : disp.mod = 0#2 ↔ disp = .none := by
  cases disp <;> simp [Disp.mod]

/-- The bytes an operand is written as are read as that operand. -/
theorem readMem_fields (m : MemRef) (hm : m.wf = true) (rest : List Byte) :
    readMem m.fields.x m.fields.b m.fields.mod m.fields.rm (m.fields.tail ++ rest) = some m := by
  cases m with
  | ripRel disp => simp [MemRef.fields, readMem]
  | base b disp =>
    simp only [MemRef.wf, Bool.and_eq_true, Bool.or_eq_true, bne_iff_ne, ne_eq] at hm
    have h5 : ¬ (disp.mod = 0#2 ∧ b.low3 = 5#3) := by
      rw [Disp.mod_eq_zero]
      tauto
    simp [MemRef.fields, readMem, hm.1, h5, extend_greg]
  | sib b index scale disp =>
    simp only [MemRef.wf, Bool.or_eq_true, bne_iff_ne, ne_eq] at hm
    have h5 : ¬ (disp.mod = 0#2 ∧ b.low3 = 5#3) := by
      rw [Disp.mod_eq_zero]
      tauto
    simp [MemRef.fields, readMem, sibByte_fields, h5, extend_greg]
  | sibNoBase index scale disp => simp [MemRef.fields, readMem, sibByte_fields, extend_greg]

theorem MemRef.fields_mod (m : MemRef) : m.fields.mod ≠ 3#2 := by
  cases m <;> simp [MemRef.fields, Disp.mod_ne_three]

theorem readModRM_mem (m : MemRef) (hm : m.wf = true) (reg : BitVec 3) (rest : List Byte) :
    readModRM m.fields.x m.fields.b (modrmByte m.fields.mod reg m.fields.rm :: (m.fields.tail ++ rest)) =
      some (reg, .mem m) := by
  simp [readModRM, modrmByte_fields, m.fields_mod, readMem_fields m hm]

theorem readModRM_reg (xx bx : Bool) (reg rm : BitVec 3) (rest : List Byte) :
    readModRM xx bx (modrmByte 3#2 reg rm :: rest) = some (reg, .reg rm) := by
  simp [readModRM, modrmByte_fields]

/-! ## What the two prefix decoders read from an encoding -/

theorem decodeVex_encodeVex (p : Prefixes) (d s1 : BitVec 4) (tbl : VexTable) (ht : tbl.wf = true) (rest : List Byte) :
    decodeVex p ((encodeVex d s1 tbl.fields).tail ++ rest) =
      if p.bad then settleIllegal (p.count + 3 + 1 + 1 + tbl.len)
      else settle (.vpermpsVex256 p.accepted d s1 tbl) := by
  obtain ⟨a1, a2, a3, a4⟩ := vexByte1_fields (d.getLsbD 3) tbl.fields.x tbl.fields.b
  obtain ⟨b1, b2, b3, b4⟩ := vexByte2_fields s1
  cases tbl with
  | reg n =>
    simp only [VexTable.fields] at *
    simp only [encodeVex, List.cons_append, List.tail_cons, List.nil_append, decodeVex, a1, a2, a3, a4, b1, b2, b3, b4,
      readModRM_reg]
    simp [vexTable, RmOperand.len, VexTable.len]
  | mem m =>
    simp only [VexTable.fields] at *
    simp only [encodeVex, List.cons_append, List.tail_cons, List.nil_append, decodeVex, a1, a2, a3, a4, b1, b2, b3, b4,
      readModRM_mem m ht]
    simp [vexTable, RmOperand.len, VexTable.len]

theorem decodeEvex_encodeEvex (p : Prefixes) (ll : BitVec 2) (hll : ll = 1#2 ∨ ll = 2#2) (d s1 : BitVec 5) (msk : Masking)
    (tbl : EvexTable) (ht : tbl.wf = true) (rest : List Byte) :
    decodeEvex p ((encodeEvex ll d s1 msk tbl).tail ++ rest) =
      if p.bad then settleIllegal (p.count + 4 + 1 + 1 + tbl.len)
      else settle (if ll = 1#2 then .vpermpsEvex256 p.accepted d s1 msk tbl
        else .vpermpsEvex512 p.accepted d s1 msk tbl) := by
  obtain ⟨a1, a2, a3, a4, a5, a6⟩ := evexByte0_fields (d.getLsbD 3) tbl.fields.x tbl.fields.b (d.getLsbD 4)
  obtain ⟨b1, b2, b3, b4⟩ := vexByte2_fields (s1.setWidth 4)
  obtain ⟨c1, c2, c3, c4, c5⟩ := evexByte2_fields msk.zBit tbl.bBit (s1.getLsbD 4) ll msk.aaa
  cases tbl with
  | reg n =>
    simp only [EvexTable.fields] at *
    simp only [encodeEvex, List.cons_append, List.tail_cons, List.nil_append, decodeEvex, EvexTable.fields, a1, a2, a3, a4,
      a5, a6, b1, b2, b3, b4, c1, c2, c3, c4, c5, readModRM_reg, maskingOf_bits, extend_reg5, extend_vvvv]
    rcases hll with rfl | rfl <;> cases p.bad <;> simp [evexTable, EvexTable.bBit, RmOperand.len, EvexTable.len]
  | mem m =>
    simp only [EvexTable.fields] at *
    simp only [encodeEvex, List.cons_append, List.tail_cons, List.nil_append, decodeEvex, EvexTable.fields, a1, a2, a3, a4,
      a5, a6, b1, b2, b3, b4, c1, c2, c3, c4, c5, readModRM_mem m ht, maskingOf_bits, extend_reg5, extend_vvvv]
    rcases hll with rfl | rfl <;> cases p.bad <;> simp [evexTable, EvexTable.bBit, RmOperand.len, EvexTable.len]
  | bcst m =>
    simp only [EvexTable.fields] at *
    simp only [encodeEvex, List.cons_append, List.tail_cons, List.nil_append, decodeEvex, EvexTable.fields, a1, a2, a3, a4,
      a5, a6, b1, b2, b3, b4, c1, c2, c3, c4, c5, readModRM_mem m ht, maskingOf_bits, extend_reg5, extend_vvvv]
    rcases hll with rfl | rfl <;> cases p.bad <;> simp [evexTable, EvexTable.bBit, RmOperand.len, EvexTable.len]

/-! ## Lengths -/

@[simp] theorem le32Bytes_length (v : BitVec 32) : (le32Bytes v).length = 4 := rfl

@[simp] theorem Disp.bytes_length (disp : Disp) : disp.bytes.length = disp.len := by cases disp <;> rfl

@[simp] theorem MemRef.tail_length (m : MemRef) : m.fields.tail.length = m.len := by
  cases m <;> simp [MemRef.fields, MemRef.len]
  omega

end Sys2Proof
end

