-- ==== Sys2Proof/Laws/Memory.lean ====
section
/-! SUPPORT. Memory: a read after a write, and the canonical form is kept by every operation. -/

namespace Sys2Proof.Machine

theorem Memory.get_set_same : ∀ (m : Memory) (a : Nat) (b : Byte), (m.set a b).get a = some b
  | [], a, b => by simp [Memory.set, Memory.get]
  | (x, y) :: m, a, b => by
    unfold Memory.set
    split
    · simp [Memory.get]
    · split
      · simp [Memory.get]
      · rename_i h
        simp [Memory.get, show ¬ x = a from fun e => h e.symm, Memory.get_set_same m a b]

theorem Memory.get_set_other {a c : Nat} (h : c ≠ a) : ∀ (m : Memory) (b : Byte), (m.set a b).get c = m.get c
  | [], b => by simp [Memory.set, Memory.get, Ne.symm h]
  | (x, y) :: m, b => by
    unfold Memory.set
    split
    · simp [Memory.get, Ne.symm h]
    · split
      · rename_i e
        subst e
        simp [Memory.get, Ne.symm h]
      · simp only [Memory.get, Memory.get_set_other h m b]

/-- Every cell of a written memory is the written one or an old one. -/
theorem Memory.mem_set {m : Memory} {a : Nat} {b : Byte} {c : Host.Cell} : c ∈ m.set a b → c = (a, b) ∨ c ∈ m := by
  induction m with
  | nil => simp [Memory.set]
  | cons d m ih =>
    obtain ⟨x, y⟩ := d
    unfold Memory.set
    split
    · simp
    · split
      · intro hc
        rcases List.mem_cons.1 hc with h | h
        · exact .inl h
        · exact .inr (List.mem_cons_of_mem _ h)
      · intro hc
        rcases List.mem_cons.1 hc with h | h
        · exact .inr (h ▸ List.mem_cons_self)
        · exact (ih h).imp id (List.mem_cons_of_mem _)

theorem Memory.set_wf {m : Memory} (hm : m.wf) {a : Nat} (ha : a < 2 ^ 64) (b : Byte) : (m.set a b).wf := by
  refine ⟨?_, fun c hc => (Memory.mem_set hc).elim (fun h => h ▸ ha) (hm.2 c)⟩
  obtain ⟨hs, -⟩ := hm
  induction m with
  | nil => simp [Memory.set]
  | cons d m ih =>
    obtain ⟨x, y⟩ := d
    obtain ⟨h1, h2⟩ := List.pairwise_cons.1 hs
    unfold Memory.set
    split
    · rename_i hlt
      refine List.pairwise_cons.2 ⟨fun c hc => ?_, hs⟩
      rcases List.mem_cons.1 hc with rfl | h
      · exact hlt
      · exact Nat.lt_trans hlt (h1 c h)
    · split
      · rename_i he
        subst he
        exact List.pairwise_cons.2 ⟨h1, h2⟩
      · rename_i hlt hne
        refine List.pairwise_cons.2 ⟨fun c hc => ?_, ih h2⟩
        rcases Memory.mem_set hc with rfl | h
        · change x < a
          omega
        · exact h1 c h

theorem Memory.setBytes_wf : ∀ (bs : List Byte) {m : Memory} (_ : m.wf) (a : Quad), (m.setBytes a bs).wf
  | [], _, hm, _ => hm
  | b :: bs, _, hm, a => Memory.setBytes_wf bs (Memory.set_wf hm a.isLt b) (a + 1)

theorem Memory.mapZero_wf : ∀ (as : List Quad) {m : Memory} (_ : m.wf), (m.mapZero as).wf
  | [], _, hm => hm
  | a :: as, m, hm => by
    unfold Memory.mapZero
    split
    · exact Memory.mapZero_wf as hm
    · exact Memory.mapZero_wf as (Memory.set_wf hm a.isLt 0#8)

/-- Mapping zero bytes changes no byte that is mapped. -/
theorem Memory.get_mapZero {a : Nat} {b : Byte} : ∀ (as : List Quad) {m : Memory}, m.get a = some b →
    (m.mapZero as).get a = some b
  | [], _, h => h
  | c :: as, m, h => by
    unfold Memory.mapZero
    split
    · exact Memory.get_mapZero as h
    · rename_i hc
      refine Memory.get_mapZero as ?_
      rw [Memory.get_set_other _ m, h]
      rintro rfl
      simp [h] at hc

/-- A mapped address is one of the listed cells. -/
theorem Memory.mem_of_get : ∀ {m : Memory} {a : Nat} {b : Byte}, m.get a = some b → (a, b) ∈ m
  | [], _, _, h => by simp [Memory.get] at h
  | (x, y) :: m, a, b, h => by
    unfold Memory.get at h
    split at h
    · rename_i e
      subst e
      simp_all
    · exact List.mem_cons_of_mem _ (Memory.mem_of_get h)

end Sys2Proof.Machine
end

