-- ==== Sys2Proof/Laws/Permute.lean ====
section
/-! SUPPORT. What the vector operations do, element by element. -/

namespace Sys2Proof

theorem VecLen.kl_le (vl : VecLen) : vl.kl ≤ 16 := by cases vl <;> decide

theorem getLsbD_ofElems (f : Nat → Elem) : ∀ n ≤ 16, ∀ i,
    (ofElems f n).getLsbD i = (decide (i < 32 * n) && (f (i / 32)).getLsbD (i % 32))
  | 0, _, i => by simp [ofElems]
  | n + 1, h, i => by
    rw [ofElems, BitVec.getLsbD_or, getLsbD_ofElems f n (by omega), BitVec.getLsbD_shiftLeft, BitVec.getLsbD_setWidth]
    by_cases h1 : i < 32 * n
    · simp [h1, show i < 32 * (n + 1) by omega]
    · by_cases h2 : i < 32 * (n + 1)
      · have h3 : i / 32 = n := by omega
        have h4 : i % 32 = i - 32 * n := by omega
        simp [h1, h2, h3, h4, show i < 512 by omega, show i - 32 * n < 512 by omega]
      · simp [h1, h2, BitVec.getLsbD_of_ge (f n) (i - 32 * n) (by omega)]

theorem getLsbD_elem32 (x : Vec) (j i : Nat) :
    (elem32 x j).getLsbD i = (decide (i < 32) && x.getLsbD (32 * j + i)) := by
  simp [elem32, BitVec.getLsbD_extractLsb']

@[simp] theorem elem32_ofElems (f : Nat → Elem) {n j : Nat} (hn : n ≤ 16) (hj : j < n) :
    elem32 (ofElems f n) j = f j := by
  refine BitVec.eq_of_getLsbD_eq fun i hi => ?_
  rw [getLsbD_elem32, getLsbD_ofElems f n hn]
  have h1 : (32 * j + i) / 32 = j := by omega
  have h2 : (32 * j + i) % 32 = i := by omega
  simp [hi, h1, h2, show 32 * j + i < 32 * n by omega]

/-- Nothing above element `n - 1`. -/
theorem elem32_ofElems_above (f : Nat → Elem) {n j : Nat} (hn : n ≤ 16) (hj : n ≤ j) :
    elem32 (ofElems f n) j = 0#32 := by
  refine BitVec.eq_of_getLsbD_eq fun i hi => ?_
  rw [getLsbD_elem32, getLsbD_ofElems f n hn]
  simp [show ¬ 32 * j + i < 32 * n by omega]

theorem ofElems_ushiftRight (f : Nat → Elem) {n : Nat} (hn : n ≤ 16) : ofElems f n >>> (32 * n) = 0#512 := by
  refine BitVec.eq_of_getLsbD_eq fun i hi => ?_
  rw [BitVec.getLsbD_ushiftRight, getLsbD_ofElems f n hn]
  simp

/-- A vector is its sixteen elements. -/
theorem vec_ext {x y : Vec} (h : ∀ j < 16, elem32 x j = elem32 y j) : x = y := by
  refine BitVec.eq_of_getLsbD_eq fun i hi => ?_
  have h1 := congrArg (fun e => e.getLsbD (i % 32)) (h (i / 32) (by omega))
  simp only [getLsbD_elem32, show i % 32 < 32 by omega, decide_true, Bool.true_and,
    show 32 * (i / 32) + i % 32 = i by omega] at h1
  exact h1

theorem indexOf_lt (vl : VecLen) (idx : Vec) (j : Nat) : indexOf vl idx j < vl.kl := by
  have h := (idx.extractLsb' (32 * j) vl.idxBits).isLt
  cases vl <;> simpa [indexOf, VecLen.kl, VecLen.idxBits] using h

/-- The index field is the index doubleword modulo `KL` (R104). -/
theorem indexOf_eq_mod (vl : VecLen) (idx : Vec) (j : Nat) : indexOf vl idx j = (elem32 idx j).toNat % vl.kl := by
  cases vl <;>
    simp only [indexOf, elem32, VecLen.idxBits, VecLen.kl, BitVec.extractLsb'_toNat] <;> omega

@[simp] theorem elem32_permute (vl : VecLen) (idx tbl : Vec) {j : Nat} (hj : j < vl.kl) :
    elem32 (permute vl idx tbl) j = elem32 tbl (indexOf vl idx j) := by
  rw [permute, elem32_ofElems _ vl.kl_le hj]

@[simp] theorem elem32_broadcast (vl : VecLen) (t : Elem) {j : Nat} (hj : j < vl.kl) :
    elem32 (broadcast vl t) j = t := by
  rw [broadcast, elem32_ofElems _ vl.kl_le hj]

theorem elem32_select (vl : VecLen) (k : Nat → Bool) (x y : Vec) {j : Nat} (hj : j < vl.kl) :
    elem32 (select vl k x y) j = if k j then elem32 x j else elem32 y j := by
  rw [select, elem32_ofElems _ vl.kl_le hj]

theorem elem32_applyMask (vl : VecLen) (tmp old : Vec) (msk : Masking) (k : Vector Opmask 8) {j : Nat} (hj : j < vl.kl) :
    elem32 (applyMask vl tmp old msk k) j =
      match msk with
      | .noWritemask => elem32 tmp j
      | .merging r => if k[r.index].getLsbD j then elem32 tmp j else elem32 old j
      | .zeroing r => if k[r.index].getLsbD j then elem32 tmp j else 0#32 := by
  refine (elem32_ofElems _ vl.kl_le hj).trans ?_
  cases msk <;> rfl

theorem applyMask_ushiftRight (vl : VecLen) (tmp old : Vec) (msk : Masking) (k : Vector Opmask 8) :
    applyMask vl tmp old msk k >>> vl.bits = 0#512 := ofElems_ushiftRight _ vl.kl_le

/-- Two results agree when their elements below `KL` do. -/
theorem ofElems_congr {f g : Nat → Elem} {n : Nat} (h : ∀ j < n, f j = g j) : ofElems f n = ofElems g n := by
  induction n with
  | zero => rfl
  | succ n ih => rw [ofElems, ofElems, ih fun j hj => h j (by omega), h n (by omega)]

theorem getLsbD_leValue : ∀ (bs : List Byte) (i : Nat), i < 512 →
    (leValue bs).getLsbD i = (bs.getD (i / 8) 0#8).getLsbD (i % 8)
  | [], i, _ => by simp [leValue]
  | b :: bs, i, hi => by
    rw [leValue, BitVec.getLsbD_or, BitVec.getLsbD_setWidth, BitVec.getLsbD_shiftLeft]
    by_cases h : i < 8
    · have h0 : i / 8 = 0 := by omega
      have h1 : i % 8 = i := by omega
      simp [h, h0, h1, hi]
    · have h0 : i / 8 = (i - 8) / 8 + 1 := by omega
      have h1 : i % 8 = (i - 8) % 8 := by omega
      rw [getLsbD_leValue bs (i - 8) (by omega), h0, h1, BitVec.getLsbD_of_ge b i (by omega)]
      simp [h, hi]

/-- Element `j` of a little-endian value is its bytes `4j .. 4j+3` (spec/20_memory.md R40). -/
theorem elem32_leValue (bs : List Byte) {j : Nat} (hj : j < 16) :
    elem32 (leValue bs) j =
      bs.getD (4 * j + 3) 0#8 ++ bs.getD (4 * j + 2) 0#8 ++ bs.getD (4 * j + 1) 0#8 ++ bs.getD (4 * j) 0#8 := by
  refine BitVec.eq_of_getLsbD_eq fun i hi => ?_
  rw [getLsbD_elem32, getLsbD_leValue _ _ (by omega)]
  simp only [BitVec.getLsbD_append, hi, decide_true, Bool.true_and]
  rcases (by omega : i < 8 ∨ (8 ≤ i ∧ i < 16) ∨ (16 ≤ i ∧ i < 24) ∨ (24 ≤ i ∧ i < 32)) with h | h | h | h
  · have h0 : (32 * j + i) / 8 = 4 * j := by omega
    have h1 : (32 * j + i) % 8 = i := by omega
    simp [h0, h1, h]
  · have h0 : (32 * j + i) / 8 = 4 * j + 1 := by omega
    have h1 : (32 * j + i) % 8 = i - 8 := by omega
    simp [h0, h1, show ¬ i < 8 by omega, show i - 8 < 8 by omega]
  · have h0 : (32 * j + i) / 8 = 4 * j + 2 := by omega
    have h1 : (32 * j + i) % 8 = i - 16 := by omega
    simp [h0, h1, show ¬ i < 8 by omega, show ¬ i - 8 < 8 by omega, show i - 8 - 8 = i - 16 by omega,
      show i - 16 < 8 by omega]
  · have h0 : (32 * j + i) / 8 = 4 * j + 3 := by omega
    have h1 : (32 * j + i) % 8 = i - 24 := by omega
    simp [h0, h1, show ¬ i < 8 by omega, show ¬ i - 8 < 8 by omega, show i - 8 - 8 = i - 16 by omega,
      show ¬ i - 16 < 8 by omega, show i - 16 - 8 = i - 24 by omega]

end Sys2Proof
end

