-- ==== Sys2Proof/Laws/State.lean ====
section
/-! SUPPORT. One lemma per field per update of the state. -/

namespace Sys2Proof.Machine

@[simp] theorem State.writeV_v (s : State) (n : BitVec 5) (x : Vec) : (s.writeV n x).v = s.v.set n.toNat (s.truncV x) n.isLt := rfl
@[simp] theorem State.writeV_k (s : State) (n : BitVec 5) (x : Vec) : (s.writeV n x).k = s.k := rfl
@[simp] theorem State.writeV_g (s : State) (n : BitVec 5) (x : Vec) : (s.writeV n x).g = s.g := rfl
@[simp] theorem State.writeV_rip (s : State) (n : BitVec 5) (x : Vec) : (s.writeV n x).rip = s.rip := rfl
@[simp] theorem State.writeV_mem (s : State) (n : BitVec 5) (x : Vec) : (s.writeV n x).mem = s.mem := rfl
@[simp] theorem State.writeV_regions (s : State) (n : BitVec 5) (x : Vec) : (s.writeV n x).regions = s.regions := rfl
@[simp] theorem State.writeV_rflags (s : State) (n : BitVec 5) (x : Vec) : (s.writeV n x).rflags = s.rflags := rfl
@[simp] theorem State.writeV_mxcsr (s : State) (n : BitVec 5) (x : Vec) : (s.writeV n x).mxcsr = s.mxcsr := rfl
@[simp] theorem State.writeV_cr0 (s : State) (n : BitVec 5) (x : Vec) : (s.writeV n x).cr0 = s.cr0 := rfl
@[simp] theorem State.writeV_cr4 (s : State) (n : BitVec 5) (x : Vec) : (s.writeV n x).cr4 = s.cr4 := rfl
@[simp] theorem State.writeV_xcr0 (s : State) (n : BitVec 5) (x : Vec) : (s.writeV n x).xcr0 = s.xcr0 := rfl
@[simp] theorem State.writeV_efer (s : State) (n : BitVec 5) (x : Vec) : (s.writeV n x).efer = s.efer := rfl
@[simp] theorem State.writeV_csL (s : State) (n : BitVec 5) (x : Vec) : (s.writeV n x).csL = s.csL := rfl
@[simp] theorem State.writeV_cpl (s : State) (n : BitVec 5) (x : Vec) : (s.writeV n x).cpl = s.cpl := rfl
@[simp] theorem State.writeV_csBase (s : State) (n : BitVec 5) (x : Vec) : (s.writeV n x).csBase = s.csBase := rfl
@[simp] theorem State.writeV_fsBase (s : State) (n : BitVec 5) (x : Vec) : (s.writeV n x).fsBase = s.fsBase := rfl
@[simp] theorem State.writeV_gsBase (s : State) (n : BitVec 5) (x : Vec) : (s.writeV n x).gsBase = s.gsBase := rfl
@[simp] theorem State.writeV_cfg (s : State) (n : BitVec 5) (x : Vec) : (s.writeV n x).cfg = s.cfg := rfl
@[simp] theorem State.writeV_freeIx (s : State) (n : BitVec 5) (x : Vec) : (s.writeV n x).freeIx = s.freeIx := rfl

@[simp] theorem State.retire_v (s : State) (len : Nat) : (s.retire len).v = s.v := rfl
@[simp] theorem State.retire_k (s : State) (len : Nat) : (s.retire len).k = s.k := rfl
@[simp] theorem State.retire_g (s : State) (len : Nat) : (s.retire len).g = s.g := rfl
@[simp] theorem State.retire_rip (s : State) (len : Nat) : (s.retire len).rip = s.rip + BitVec.ofNat 64 len := rfl
@[simp] theorem State.retire_mem (s : State) (len : Nat) : (s.retire len).mem = s.mem := rfl
@[simp] theorem State.retire_regions (s : State) (len : Nat) : (s.retire len).regions = s.regions := rfl
@[simp] theorem State.retire_rflags (s : State) (len : Nat) : (s.retire len).rflags = s.rflags := rfl
@[simp] theorem State.retire_mxcsr (s : State) (len : Nat) : (s.retire len).mxcsr = s.mxcsr := rfl
@[simp] theorem State.retire_cr0 (s : State) (len : Nat) : (s.retire len).cr0 = s.cr0 := rfl
@[simp] theorem State.retire_cr4 (s : State) (len : Nat) : (s.retire len).cr4 = s.cr4 := rfl
@[simp] theorem State.retire_xcr0 (s : State) (len : Nat) : (s.retire len).xcr0 = s.xcr0 := rfl
@[simp] theorem State.retire_efer (s : State) (len : Nat) : (s.retire len).efer = s.efer := rfl
@[simp] theorem State.retire_csL (s : State) (len : Nat) : (s.retire len).csL = s.csL := rfl
@[simp] theorem State.retire_cpl (s : State) (len : Nat) : (s.retire len).cpl = s.cpl := rfl
@[simp] theorem State.retire_csBase (s : State) (len : Nat) : (s.retire len).csBase = s.csBase := rfl
@[simp] theorem State.retire_fsBase (s : State) (len : Nat) : (s.retire len).fsBase = s.fsBase := rfl
@[simp] theorem State.retire_gsBase (s : State) (len : Nat) : (s.retire len).gsBase = s.gsBase := rfl
@[simp] theorem State.retire_cfg (s : State) (len : Nat) : (s.retire len).cfg = s.cfg := rfl
@[simp] theorem State.retire_freeIx (s : State) (len : Nat) : (s.retire len).freeIx = s.freeIx + 1 := rfl

@[simp] theorem State.enabled_v (s : State) : (s.enabled).v = s.v := rfl
@[simp] theorem State.enabled_k (s : State) : (s.enabled).k = s.k := rfl
@[simp] theorem State.enabled_g (s : State) : (s.enabled).g = s.g := rfl
@[simp] theorem State.enabled_rip (s : State) : (s.enabled).rip = s.rip := rfl
@[simp] theorem State.enabled_mem (s : State) : (s.enabled).mem = s.mem := rfl
@[simp] theorem State.enabled_regions (s : State) : (s.enabled).regions = s.regions := rfl
@[simp] theorem State.enabled_rflags (s : State) : (s.enabled).rflags = s.rflags &&& ~~~(1#64 <<< 17) := rfl
@[simp] theorem State.enabled_mxcsr (s : State) : (s.enabled).mxcsr = s.mxcsr := rfl
@[simp] theorem State.enabled_cr0 (s : State) : (s.enabled).cr0 = (s.cr0 ||| 1#64 ||| 1#64 <<< 31) &&& ~~~(1#64 <<< 3) := rfl
@[simp] theorem State.enabled_cr4 (s : State) : (s.enabled).cr4 = s.cr4 ||| 1#64 <<< 18 := rfl
@[simp] theorem State.enabled_xcr0 (s : State) : (s.enabled).xcr0 = s.xcr0 ||| 0xE6#64 := rfl
@[simp] theorem State.enabled_efer (s : State) : (s.enabled).efer = s.efer ||| 1#64 <<< 8 ||| 1#64 <<< 10 := rfl
@[simp] theorem State.enabled_csL (s : State) : (s.enabled).csL = true := rfl
@[simp] theorem State.enabled_cpl (s : State) : (s.enabled).cpl = s.cpl := rfl
@[simp] theorem State.enabled_csBase (s : State) : (s.enabled).csBase = s.csBase := rfl
@[simp] theorem State.enabled_fsBase (s : State) : (s.enabled).fsBase = s.fsBase := rfl
@[simp] theorem State.enabled_gsBase (s : State) : (s.enabled).gsBase = s.gsBase := rfl
@[simp] theorem State.enabled_cfg (s : State) : (s.enabled).cfg = s.cfg := rfl
@[simp] theorem State.enabled_freeIx (s : State) : (s.enabled).freeIx = s.freeIx := rfl

@[simp] theorem State.launch_v (s : State) (bs : List Byte) : (s.launch bs).v = s.v := rfl
@[simp] theorem State.launch_k (s : State) (bs : List Byte) : (s.launch bs).k = s.k := rfl
@[simp] theorem State.launch_g (s : State) (bs : List Byte) : (s.launch bs).g = s.g := rfl
@[simp] theorem State.launch_rip (s : State) (bs : List Byte) : (s.launch bs).rip = s.rip := rfl
@[simp] theorem State.launch_mem (s : State) (bs : List Byte) : (s.launch bs).mem = Memory.setBytes s.mem s.rip bs := rfl
@[simp] theorem State.launch_regions (s : State) (bs : List Byte) : (s.launch bs).regions = [] := rfl
@[simp] theorem State.launch_rflags (s : State) (bs : List Byte) : (s.launch bs).rflags = s.enabled.rflags := rfl
@[simp] theorem State.launch_mxcsr (s : State) (bs : List Byte) : (s.launch bs).mxcsr = s.mxcsr := rfl
@[simp] theorem State.launch_cr0 (s : State) (bs : List Byte) : (s.launch bs).cr0 = s.enabled.cr0 := rfl
@[simp] theorem State.launch_cr4 (s : State) (bs : List Byte) : (s.launch bs).cr4 = s.enabled.cr4 := rfl
@[simp] theorem State.launch_xcr0 (s : State) (bs : List Byte) : (s.launch bs).xcr0 = s.enabled.xcr0 := rfl
@[simp] theorem State.launch_efer (s : State) (bs : List Byte) : (s.launch bs).efer = s.enabled.efer := rfl
@[simp] theorem State.launch_csL (s : State) (bs : List Byte) : (s.launch bs).csL = true := rfl
@[simp] theorem State.launch_cpl (s : State) (bs : List Byte) : (s.launch bs).cpl = s.cpl := rfl
@[simp] theorem State.launch_csBase (s : State) (bs : List Byte) : (s.launch bs).csBase = s.csBase := rfl
@[simp] theorem State.launch_fsBase (s : State) (bs : List Byte) : (s.launch bs).fsBase = s.fsBase := rfl
@[simp] theorem State.launch_gsBase (s : State) (bs : List Byte) : (s.launch bs).gsBase = s.gsBase := rfl
@[simp] theorem State.launch_cfg (s : State) (bs : List Byte) : (s.launch bs).cfg = s.cfg := rfl
@[simp] theorem State.launch_freeIx (s : State) (bs : List Byte) : (s.launch bs).freeIx = s.freeIx := rfl

@[simp] theorem State.mapOperand_v (s : State) (i : Instr) : (s.mapOperand i).v = s.v := rfl
@[simp] theorem State.mapOperand_k (s : State) (i : Instr) : (s.mapOperand i).k = s.k := rfl
@[simp] theorem State.mapOperand_g (s : State) (i : Instr) : (s.mapOperand i).g = s.g := rfl
@[simp] theorem State.mapOperand_rip (s : State) (i : Instr) : (s.mapOperand i).rip = s.rip := rfl
@[simp] theorem State.mapOperand_mem (s : State) (i : Instr) : (s.mapOperand i).mem = Memory.mapZero s.mem (s.operandAddrs i) := rfl
@[simp] theorem State.mapOperand_regions (s : State) (i : Instr) : (s.mapOperand i).regions = s.regions := rfl
@[simp] theorem State.mapOperand_rflags (s : State) (i : Instr) : (s.mapOperand i).rflags = s.rflags := rfl
@[simp] theorem State.mapOperand_mxcsr (s : State) (i : Instr) : (s.mapOperand i).mxcsr = s.mxcsr := rfl
@[simp] theorem State.mapOperand_cr0 (s : State) (i : Instr) : (s.mapOperand i).cr0 = s.cr0 := rfl
@[simp] theorem State.mapOperand_cr4 (s : State) (i : Instr) : (s.mapOperand i).cr4 = s.cr4 := rfl
@[simp] theorem State.mapOperand_xcr0 (s : State) (i : Instr) : (s.mapOperand i).xcr0 = s.xcr0 := rfl
@[simp] theorem State.mapOperand_efer (s : State) (i : Instr) : (s.mapOperand i).efer = s.efer := rfl
@[simp] theorem State.mapOperand_csL (s : State) (i : Instr) : (s.mapOperand i).csL = s.csL := rfl
@[simp] theorem State.mapOperand_cpl (s : State) (i : Instr) : (s.mapOperand i).cpl = s.cpl := rfl
@[simp] theorem State.mapOperand_csBase (s : State) (i : Instr) : (s.mapOperand i).csBase = s.csBase := rfl
@[simp] theorem State.mapOperand_fsBase (s : State) (i : Instr) : (s.mapOperand i).fsBase = s.fsBase := rfl
@[simp] theorem State.mapOperand_gsBase (s : State) (i : Instr) : (s.mapOperand i).gsBase = s.gsBase := rfl
@[simp] theorem State.mapOperand_cfg (s : State) (i : Instr) : (s.mapOperand i).cfg = s.cfg := rfl
@[simp] theorem State.mapOperand_freeIx (s : State) (i : Instr) : (s.mapOperand i).freeIx = s.freeIx := rfl

/-! ## After an INIT -/

@[simp] theorem State.afterInit_v (s : State) : s.afterInit.v = s.v := rfl
@[simp] theorem State.afterInit_k (s : State) : s.afterInit.k = s.k := rfl
@[simp] theorem State.afterInit_mem (s : State) : s.afterInit.mem = s.mem := rfl
@[simp] theorem State.afterInit_regions (s : State) : s.afterInit.regions = s.regions := rfl
@[simp] theorem State.afterInit_mxcsr (s : State) : s.afterInit.mxcsr = s.mxcsr := rfl
@[simp] theorem State.afterInit_xcr0 (s : State) : s.afterInit.xcr0 = s.xcr0 := rfl
@[simp] theorem State.afterInit_cfg (s : State) : s.afterInit.cfg = s.cfg := rfl
@[simp] theorem State.afterInit_freeIx (s : State) : s.afterInit.freeIx = s.freeIx := rfl
@[simp] theorem State.afterInit_g (s : State) : s.afterInit.g = State.reset.g := rfl
@[simp] theorem State.afterInit_rip (s : State) : s.afterInit.rip = State.reset.rip := rfl
@[simp] theorem State.afterInit_csBase (s : State) : s.afterInit.csBase = State.reset.csBase := rfl
@[simp] theorem State.afterInit_csL (s : State) : s.afterInit.csL = State.reset.csL := rfl
@[simp] theorem State.afterInit_rflags (s : State) : s.afterInit.rflags = State.reset.rflags := rfl
@[simp] theorem State.afterInit_cr4 (s : State) : s.afterInit.cr4 = State.reset.cr4 := rfl
@[simp] theorem State.afterInit_efer (s : State) : s.afterInit.efer = State.reset.efer := rfl
@[simp] theorem State.afterInit_cpl (s : State) : s.afterInit.cpl = State.reset.cpl := rfl
@[simp] theorem State.afterInit_fsBase (s : State) : s.afterInit.fsBase = State.reset.fsBase := rfl
@[simp] theorem State.afterInit_gsBase (s : State) : s.afterInit.gsBase = State.reset.gsBase := rfl
@[simp] theorem State.afterInit_cr0 (s : State) : s.afterInit.cr0 = 0x10#64 ||| (s.cr0 &&& 0x60000000#64) := rfl

end Sys2Proof.Machine
end

