-- ==== Sys2Proof/Laws/Ops.lean ====
section
/-! SUPPORT. What the shared operations over registers and memory do. -/

namespace Sys2Proof.Machine

/-- An open choice is one of the admitted outcomes. -/
theorem pickFrom_mem {α : Type} (n : Nat) (x : α) (xs : List α) : pickFrom n x xs ∈ x :: xs := by
  cases xs with
  | nil => simp [pickFrom]
  | cons y ys =>
    have h : n % ((y :: ys).length + 1) < (x :: y :: ys).length := Nat.mod_lt _ (by simp)
    simp only [pickFrom]
    rw [List.getD_eq_getElem _ _ h]
    exact List.getElem_mem h

/-- Without another outcome there is no choice. -/
@[simp] theorem pickFrom_nil {α : Type} (n : Nat) (x : α) : pickFrom n x [] = x := rfl

/-- A choice between two outcomes. -/
theorem pickFrom_two {α : Type} (n : Nat) (x y : α) : pickFrom n x [y] = x ∨ pickFrom n x [y] = y := by
  simpa using pickFrom_mem n x [y]

/-! ## Vector registers -/

theorem State.truncV_of_maxvl {s : State} (h : s.cfg.hasAvx512f = true) (x : Vec) : s.truncV x = x := by
  simp [State.truncV, State.maxvl, h]

theorem getLsbD_truncV (s : State) (x : Vec) (i : Nat) :
    (s.truncV x).getLsbD i = (decide (i < s.maxvl) && x.getLsbD i) := by
  have h : s.maxvl ≤ 512 := by
    unfold State.maxvl
    split <;> omega
  by_cases hi : i < 512
  · simp [State.truncV, hi]
  · simp [State.truncV, BitVec.getLsbD_of_ge x i (by omega), hi]

/-- A 256-bit value fits every `MAXVL`. -/
theorem State.truncV_of_high {s : State} {x : Vec} (h : x >>> 256 = 0#512) : s.truncV x = x := by
  refine BitVec.eq_of_getLsbD_eq fun i hi => ?_
  rw [getLsbD_truncV]
  by_cases h1 : i < s.maxvl
  · simp [h1]
  · have h2 : 256 ≤ i := by
      unfold State.maxvl at h1
      split at h1 <;> omega
    have h3 := congrArg (fun y => y.getLsbD (i - 256)) h
    simp only [BitVec.getLsbD_ushiftRight, show 256 + (i - 256) = i by omega, BitVec.getLsbD_zero] at h3
    simp [h1, h3]

@[simp] theorem State.readV_writeV_same (s : State) (n : BitVec 5) (x : Vec) : (s.writeV n x).readV n = s.truncV x := by
  simp [State.readV, State.writeV]

theorem State.readV_writeV_other (s : State) {n m : BitVec 5} (h : m ≠ n) (x : Vec) :
    (s.writeV n x).readV m = s.readV m := by
  have h' : n.toNat ≠ m.toNat := fun e => h (BitVec.eq_of_toNat_eq e.symm)
  simp [State.readV, State.writeV, h']

@[simp] theorem State.readV_retire (s : State) (len : Nat) (n : BitVec 5) : (s.retire len).readV n = s.readV n := rfl

/-! ## The read primitive -/

@[simp] theorem addrs_length (la : Quad) (n : Nat) : (addrs la n).length = n := by simp [addrs]

theorem mem_addrs {la a : Quad} {n : Nat} : a ∈ addrs la n ↔ ∃ i < n, a = la + BitVec.ofNat 64 i := by
  simp only [addrs, List.mem_map, List.mem_range, eq_comm]

/-- The byte of an address that is translated. -/
theorem State.byteAt_of_ok {s : State} {a : Quad} {b : Byte} (h : s.translate .read a = .ok b) : s.byteAt a = b := by
  simp [State.byteAt, h]

/-- What CR2 may receive: the address `Translate` gives in the operand, or one in the page of the failing byte. -/
theorem mem_cr2Candidates {as : List Quad} {f a : Quad} {la : Option Quad} (h : a ∈ cr2Candidates as f la) :
    a ∈ as ∧ (la = some a ∨ (∀ l, la = some l → l ∉ as) ∧ pageOf a = pageOf f) := by
  unfold cr2Candidates at h
  cases la with
  | none => simpa using h
  | some l =>
    dsimp only at h
    split at h
    · rename_i hl
      rw [List.mem_singleton] at h
      subst h
      exact ⟨by simpa using hl, .inl rfl⟩
    · rename_i hl
      simp only [List.mem_filter, beq_iff_eq] at h
      refine ⟨h.1, .inr ⟨?_, h.2⟩⟩
      rintro m ⟨⟩
      simpa using hl

/-- CR2 can receive an address whenever a byte of the operand fails. -/
theorem cr2Candidates_ne_nil {as : List Quad} {f : Quad} (hf : f ∈ as) (la : Option Quad) : cr2Candidates as f la ≠ [] := by
  have h : f ∈ as.filter fun a => pageOf a == pageOf f := by simp [hf]
  unfold cr2Candidates
  cases la with
  | none => exact List.ne_nil_of_mem h
  | some l =>
    dsimp only
    split
    · simp
    · exact List.ne_nil_of_mem h

/-- A page fault records an address and a code exactly as one of the failing bytes allows. -/
theorem State.mem_pageFaults {s : State} {as : List Quad} {a : Quad} {code : BitVec 32} :
    (a, code) ∈ s.pageFaults as ↔
      ∃ f ∈ as, ∃ la, s.translate .read f = .pageFault code la ∧ a ∈ cr2Candidates as f la := by
  simp only [State.pageFaults, List.mem_flatMap]
  refine exists_congr fun f => and_congr_right fun _ => ?_
  cases s.translate .read f <;> simp
  exact and_comm

/-- No page fault when no byte fails. -/
theorem State.pageFaults_eq_nil {s : State} {as : List Quad}
    (h : ∀ a ∈ as, ∀ code la, s.translate .read a ≠ .pageFault code la) : s.pageFaults as = [] := by
  refine List.eq_nil_iff_forall_not_mem.2 fun q hq => ?_
  obtain ⟨f, hf, la, h1, -⟩ := State.mem_pageFaults.1 hq
  exact h f hf _ la h1

theorem State.pageFaults_ne_nil {s : State} {as : List Quad} {f : Quad} {code : BitVec 32} {la : Option Quad} (hf : f ∈ as)
    (h : s.translate .read f = .pageFault code la) : s.pageFaults as ≠ [] := by
  obtain ⟨a, ha⟩ := List.exists_mem_of_ne_nil _ (cr2Candidates_ne_nil hf la)
  exact List.ne_nil_of_mem (State.mem_pageFaults.2 ⟨f, hf, la, h, ha⟩)

/-- The address faults are those `Translate` answers for a byte of the operand. -/
theorem State.addressFaults_eq (s : State) (as : List Quad) :
    s.addressFaults as =
      (if ∃ a ∈ as, s.translate .read a = .gp0 then [.gp0] else []) ++
        if ∃ a ∈ as, s.translate .read a = .ss0 then [.ss0] else [] := by
  simp [State.addressFaults]

/-- No address fault when `Translate` answers none. -/
theorem State.addressFaults_eq_nil {s : State} {as : List Quad} :
    s.addressFaults as = [] ↔ ∀ a ∈ as, s.translate .read a ≠ .gp0 ∧ s.translate .read a ≠ .ss0 := by
  rw [State.addressFaults_eq]
  simp only [List.append_eq_nil_iff, ite_eq_right_iff, List.cons_ne_nil, imp_false, not_exists, not_and]
  exact forall₂_and.symm

theorem State.mem_addressFaults {s : State} {as : List Quad} {f : Quad → Fault} (h : f ∈ s.addressFaults as) :
    (f = .gp0 ∧ ∃ a ∈ as, s.translate .read a = .gp0) ∨ (f = .ss0 ∧ ∃ a ∈ as, s.translate .read a = .ss0) := by
  rw [State.addressFaults_eq, List.mem_append] at h
  refine h.imp (fun h => ?_) fun h => ?_ <;> split at h <;> simp_all

/-- The read of an operand whose bytes are canonical and translated, no alignment check applying. -/
theorem State.memRead_ok {s : State} (seg : Segment) {la : Quad} {n : Nat}
    (h : ∀ i < n, s.canonical (la + BitVec.ofNat 64 i) = true ∧ ∃ b, s.translate .read (la + BitVec.ofNat 64 i) = .ok b) :
    s.memRead seg la n false = .ok (leValue ((addrs la n).map s.byteAt)) := by
  have h1 : (addrs la n).all s.canonical = true := by
    simp only [List.all_eq_true, mem_addrs]
    rintro a ⟨i, hi, rfl⟩
    exact (h i hi).1
  have h2 : (addrs la n).any (fun a => s.translate .read a == .device) = false := by
    simp only [List.any_eq_false, mem_addrs]
    rintro a ⟨i, hi, rfl⟩
    obtain ⟨b, hb⟩ := (h i hi).2
    simp [hb]
  have h3 : s.pageFaults (addrs la n) = [] := by
    refine State.pageFaults_eq_nil fun a ha code p => ?_
    obtain ⟨i, hi, rfl⟩ := mem_addrs.1 ha
    obtain ⟨b, hb⟩ := (h i hi).2
    simp [hb]
  have h4 : s.addressFaults (addrs la n) = [] := by
    refine State.addressFaults_eq_nil.2 fun a ha => ?_
    obtain ⟨i, hi, rfl⟩ := mem_addrs.1 ha
    obtain ⟨b, hb⟩ := (h i hi).2
    simp [hb]
  simp [State.memRead, h1, h2, h3, h4]

/-- Everything a read can answer, in the order of spec/60_exceptions.md R141. -/
theorem State.memRead_cases (s : State) (seg : Segment) (la : Quad) (n : Nat) (mayCheck : Bool) :
    ((∃ a ∈ addrs la n, s.canonical a = false) ∧ s.memRead seg la n mayCheck = .error (raise seg.addressFault s)) ∨
      (∀ a ∈ addrs la n, s.canonical a = true) ∧
        ((∃ a ∈ addrs la n, s.translate .read a = .device) ∧
            s.memRead seg la n mayCheck = .error (.refuse .deviceMemory) ∨
          (∀ a ∈ addrs la n, s.translate .read a ≠ .device) ∧
            ((∃ f ∈ s.addressFaults (addrs la n), s.memRead seg la n mayCheck = .error (raise f s)) ∨
              s.addressFaults (addrs la n) = [] ∧
                (mayCheck = true ∧ s.memRead seg la n mayCheck = .error (raise .ac0 s) ∨
                  s.pageFaults (addrs la n) = [] ∧
                    s.memRead seg la n mayCheck = .ok (leValue ((addrs la n).map s.byteAt)) ∨
                  ∃ q ∈ s.pageFaults (addrs la n),
                    s.memRead seg la n mayCheck = .error (raise (fun r => .pf r q.2 q.1) s)))) := by
  unfold State.memRead
  dsimp only
  split
  · rename_i h
    refine .inl ⟨?_, rfl⟩
    simpa using h
  rename_i h
  refine .inr ⟨by simpa using h, ?_⟩
  split
  · rename_i hd
    exact .inl ⟨by simpa using hd, rfl⟩
  rename_i hd
  refine .inr ⟨by simpa using hd, ?_⟩
  cases s.addressFaults (addrs la n) with
  | cons f fs => exact .inl ⟨_, pickFrom_mem _ f fs, rfl⟩
  | nil =>
    refine .inr ⟨rfl, ?_⟩
    cases s.pageFaults (addrs la n) with
    | nil =>
      cases mayCheck
      · exact .inr (.inl ⟨rfl, rfl⟩)
      · rcases pickFrom_two (Config.acChoice s.freeIx) (Except.ok (leValue ((addrs la n).map s.byteAt)) : Except Stop Vec)
          (.error (raise .ac0 s)) with e | e
        · exact .inr (.inl ⟨rfl, e⟩)
        · exact .inl ⟨rfl, e⟩
    | cons p ps =>
      have hq := pickFrom_mem (Config.cr2Choice s.freeIx) p ps
      cases mayCheck
      · exact .inr (.inr ⟨_, hq, rfl⟩)
      · rcases pickFrom_two (Config.acChoice s.freeIx)
          (Except.error (raise (fun r => .pf r (pickFrom (Config.cr2Choice s.freeIx) p ps).2
            (pickFrom (Config.cr2Choice s.freeIx) p ps).1) s) : Except Stop Vec)
          (.error (raise .ac0 s)) with e | e
        · exact .inr (.inr ⟨_, hq, e⟩)
        · exact .inl ⟨rfl, e⟩

/-- The bits of a page-fault code (R134, R147): W/R, U/S and I/D are computed, every other bit is the given code's. -/
theorem State.pfCode_bit (s : State) (acc : Access) (code : BitVec 32) (n : Nat) :
    (s.pfCode acc code).getLsbD n =
      if n = 1 then false else if n = 2 then decide (s.cpl = 3#2) else if n = 4 then decide (acc = .fetch)
        else code.getLsbD n := by
  have hu : (s.cpl == 3#2) = decide (s.cpl = 3#2) := rfl
  have hf : (acc == Access.fetch) = decide (acc = .fetch) := by cases acc <;> rfl
  by_cases h : n < 5
  · rcases (by omega : n = 0 ∨ n = 1 ∨ n = 2 ∨ n = 3 ∨ n = 4) with rfl | rfl | rfl | rfl | rfl <;>
      simp [State.pfCode, hu, hf]
  · have hm : Nat.testBit 22 n = false := Nat.testBit_lt_two_pow (Nat.lt_of_lt_of_le (by decide : 22 < 2 ^ 5)
      (Nat.pow_le_pow_right (by decide) (by omega)))
    have hz : ∀ (b : Bool) (m : Nat), m ≠ 0 → (BitVec.ofBool b).getLsbD m = false := fun b m h => by simp [h]
    simp only [State.pfCode, BitVec.getLsbD_or, BitVec.getLsbD_and, BitVec.getLsbD_not, BitVec.getLsbD_shiftLeft,
      BitVec.getLsbD_setWidth, BitVec.getLsbD_ofNat, hm, hz _ (n - 2) (by omega), hz _ (n - 4) (by omega)]
    rw [if_neg (by omega), if_neg (by omega), if_neg (by omega)]
    by_cases hn : n < 32
    · simp [hn]
    · simp [hn, BitVec.getLsbD_of_ge code n (by omega)]

end Sys2Proof.Machine
end

