-- ==== Sys2Proof/Laws/PerInstr.lean ====
section
/-! SUPPORT. Statements made for each instruction. EncodeLength: the encoder writes as many bytes as the length function of
R81 says. -/

namespace Sys2Proof.Laws

def EncodeLength.Statement (i : Instr) : Prop := (encode i).length = i.len

theorem EncodeLength.vpermpsVex256 (ps : List LegacyPrefix) (d s1 : BitVec 4) (tbl : VexTable) :
    EncodeLength.Statement (.vpermpsVex256 ps d s1 tbl) := by
  cases tbl <;> (simp [EncodeLength.Statement, encode, encodeVex, VexTable.fields, Instr.len, VexTable.len]; try omega)

theorem EncodeLength.vpermpsEvex256 (ps : List LegacyPrefix) (d s1 : BitVec 5) (msk : Masking) (tbl : EvexTable) :
    EncodeLength.Statement (.vpermpsEvex256 ps d s1 msk tbl) := by
  cases tbl <;> (simp [EncodeLength.Statement, encode, encodeEvex, EvexTable.fields, Instr.len, EvexTable.len]; try omega)

theorem EncodeLength.vpermpsEvex512 (ps : List LegacyPrefix) (d s1 : BitVec 5) (msk : Masking) (tbl : EvexTable) :
    EncodeLength.Statement (.vpermpsEvex512 ps d s1 msk tbl) := by
  cases tbl <;> (simp [EncodeLength.Statement, encode, encodeEvex, EvexTable.fields, Instr.len, EvexTable.len]; try omega)

end Sys2Proof.Laws
end

