-- ==== Sys2Proof/Laws/Vpermps.lean ====
section
/-! SUPPORT. Once and for all what a VPERMPS and a step can do. -/

namespace Sys2Proof.Machine

/-- The destination register of an instruction. -/
def destOf : Instr → BitVec 5
  | .vpermpsVex256 _ d _ _ => d.setWidth 5
  | .vpermpsEvex256 _ d _ _ _ => d
  | .vpermpsEvex512 _ d _ _ _ => d

/-- Every instruction is one call of the shared meaning. -/
theorem exec_eq_vpermps (i : Instr) : ∃ f ps s1 msk tbl, ∀ s, exec i s = vpermps f ps (destOf i) s1 msk tbl i.len s := by
  cases i with
  | vpermpsVex256 ps d s1 tbl => exact ⟨_, _, _, _, _, fun _ => rfl⟩
  | vpermpsEvex256 ps d s1 msk tbl => exact ⟨_, _, _, _, _, fun _ => rfl⟩
  | vpermpsEvex512 ps d s1 msk tbl => exact ⟨_, _, _, _, _, fun _ => rfl⟩

/-- A stop is not a next state. -/
theorem Stop.outcome_ne_next (st : Stop) (t : State) : st.outcome ≠ .next t := by
  cases st <;> simp [Stop.outcome]

/-- A completed VPERMPS: the form is enabled, the table was read, one register is written, `rip` advances. -/
theorem vpermps_next {f : Form} {ps : List LegacyPrefix} {d s1 : BitVec 5} {msk : Masking} {tbl : EvexTable} {len : Nat}
    {s t : State} (h : vpermps f ps d s1 msk tbl len s = .next t) :
    s.enablingStop f = none ∧ ∃ x, s.sourceTable f ps len tbl = .ok x ∧
      t = (s.writeV d (s.result f d s1 msk x)).retire len := by
  unfold vpermps at h
  split at h
  · exact absurd h (Stop.outcome_ne_next _ _)
  · rename_i he
    refine ⟨he, ?_⟩
    split at h
    · exact absurd h (Stop.outcome_ne_next _ _)
    · rename_i x hx
      exact ⟨x, hx, by simpa using h.symm⟩

/-- A completed VPERMPS changes the destination register, `rip` and the choice counter, nothing else. -/
theorem exec_next {i : Instr} {s t : State} (h : exec i s = .next t) :
    ∃ x, t = (s.writeV (destOf i) x).retire i.len := by
  obtain ⟨f, ps, s1, msk, tbl, hi⟩ := exec_eq_vpermps i
  rw [hi] at h
  obtain ⟨-, x, -, ht⟩ := vpermps_next h
  exact ⟨_, ht⟩

/-- A step that answers a next state executed a decoded instruction. -/
theorem step_next {s t : State} (h : step s = .next t) :
    ∃ i, decode s.fetchBytes = .instr i ∧ exec i s = .next t := by
  unfold step at h
  split at h
  · simp at h
  · dsimp only at h
    split at h
    · rename_i i hd
      exact ⟨i, hd, h⟩
    · exact absurd h (Stop.outcome_ne_next _ _)

/-- A form is not #UD by the state in 64-bit mode with its flags and enabling. -/
theorem disabled_eq_false {s : State} {f : Form} (hm : s.mode ≠ .prot32) :
    s.disabled f = false ↔ s.mode = .long64 ∧ s.hasForm f = true ∧ s.osEnabled f = true := by
  unfold State.disabled
  revert hm
  cases s.mode <;> simp

/-- The enabling checks pass exactly in 64-bit mode with the form's flags and enabling and CR0.TS clear. -/
theorem enablingStop_eq_none {s : State} {f : Form} :
    s.enablingStop f = none ↔ s.mode = .long64 ∧ s.hasForm f = true ∧ s.osEnabled f = true ∧ s.cr0TS = false := by
  unfold State.enablingStop
  by_cases hm : s.mode = .prot32
  · simp [hm]
  · rw [if_neg hm]
    cases hd : s.disabled f
    · obtain ⟨h1, h2, h3⟩ := (disabled_eq_false hm).1 hd
      simp [h1, h2, h3]
    · simp only [if_true, reduceCtorEq, false_iff]
      rintro ⟨h1, h2, h3, -⟩
      rw [(disabled_eq_false hm).2 ⟨h1, h2, h3⟩] at hd
      cases hd

end Sys2Proof.Machine
end

