-- ==== Sys2Proof/Laws/Step.lean ====
section
/-! SUPPORT. What fetching gives, and the two things a step outside 32-bit mode does. -/

namespace Sys2Proof.Machine

/-- Bytes that can be fetched one after the other are fetched in order, and fetching goes on behind them. -/
theorem State.fetchFrom_append (s : State) : ∀ (bs : List Byte) (n : Nat) (a : Quad), bs.length ≤ n →
    (∀ j (h : j < bs.length), s.fetchByte (a + BitVec.ofNat 64 j) = some bs[j]) →
    s.fetchFrom n a = bs ++ s.fetchFrom (n - bs.length) (a + BitVec.ofNat 64 bs.length)
  | [], n, a, _, _ => by simp
  | b :: bs, 0, a, hn, _ => by simp at hn
  | b :: bs, n + 1, a, hn, h => by
    have h0 := h 0 (by simp)
    simp only [BitVec.add_zero, List.getElem_cons_zero] at h0
    have hs : ∀ k : Nat, a + 1 + BitVec.ofNat 64 k = a + BitVec.ofNat 64 (k + 1) := by
      intro k
      rw [BitVec.add_assoc, BitVec.ofNat_eq_ofNat, ← BitVec.ofNat_add, Nat.add_comm]
    have ih := State.fetchFrom_append s bs n (a + 1) (by simpa using hn) fun j hj => by
      rw [hs]
      exact h (j + 1) (by simpa using hj)
    simp only [State.fetchFrom, h0, ih, hs, List.length_cons, Nat.add_sub_add_right, List.cons_append]

theorem step_instr {s : State} {i : Instr} (hm : s.mode ≠ .prot32) (h : decode s.fetchBytes = .instr i) :
    step s = exec i s := by
  simp [step, hm, h]

theorem step_reject {s : State} {w : Reject} (hm : s.mode ≠ .prot32) (h : decode s.fetchBytes = .reject w) :
    step s = (s.decodeStop s.fetchBytes w).outcome := by
  simp [step, hm, h]

end Sys2Proof.Machine
end

