-- ==== Sys2Proof/Tests/Slice0.lean ====
section
/-! SUPPORT. The model's own tests. The expected values are those of spec/95_test_vectors.md (the identifiers E, X, V name
its rows) or computed by hand from the rule named. The theorems `witness_…` show states and operands that meet the hypotheses
of the obligation they name. -/

namespace Sys2Proof.Tests

set_option Elab.async false

open Sys2Proof.Machine Sys2Proof.Spec

/-! ## Building small states -/

/-- A vector from its elements, element 0 first. -/
def vec (l : List Nat) : Vec := ofElems (fun j => BitVec.ofNat 32 (l.getD j 0)) 16

/-- A launched machine with `code` at 0x401000. -/
def machine (code : List Byte) : State :=
  { State.reset.enabled with rip := 0x401000#64, mem := Memory.setBytes [] 0x401000#64 code }

def withV (n : BitVec 5) (l : List Nat) (s : State) : State := s.writeV n (vec l)

def withK (n : Fin 8) (x : BitVec 64) (s : State) : State := { s with k := s.k.set n x }

def withG (n : Fin 16) (x : Quad) (s : State) : State := { s with g := s.g.set n x }

def withBytes (a : Quad) (l : List Byte) (s : State) : State := { s with mem := Memory.setBytes s.mem a l }

/-- Elements `0 .. 15` of register `d` and `rip`, of a next state. -/
def after (d : BitVec 5) : Host.Outcome State Fault Refusal → Option (List Nat × Nat)
  | .next t => some ((List.range 16).map (fun j => (elem32 (t.readV d) j).toNat), t.rip.toNat)
  | .fault _ => none
  | .refused _ => none

def faultOf : Host.Outcome State Fault Refusal → Option Fault
  | .next _ => none
  | .fault f => some f
  | .refused _ => none

def refusalOf : Host.Outcome State Fault Refusal → Option Refusal
  | .next _ => none
  | .fault _ => none
  | .refused r => some r

/-- The floats 1.0 to 8.0. -/
def f8 : List Nat :=
  [0x3F800000, 0x40000000, 0x40400000, 0x40800000, 0x40A00000, 0x40C00000, 0x40E00000, 0x41000000]

def down8 : List Nat := [7, 6, 5, 4, 3, 2, 1, 0]
def down16 : List Nat := [15, 14, 13, 12, 11, 10, 9, 8, 7, 6, 5, 4, 3, 2, 1, 0]

/-! ## One step of each form -/

/-- V1: bits 511:256 of the destination become zero. -/
theorem test_vex256_reverses :
    after 1#5 (step <| withV 1#5 (List.replicate 16 0xDEADBEEF) <| withV 2#5 down8 <| withV 3#5 f8 <|
        machine [0xC4#8, 0xE2#8, 0x6D#8, 0x16#8, 0xCB#8]) =
      some (f8.reverse ++ List.replicate 8 0, 0x401005) := by decide +kernel

/-- V14: the destination is also the table (R111). -/
theorem test_vex256_destination_is_table :
    after 3#5 (step <| withV 2#5 down8 <| withV 3#5 f8 <| machine [0xC4#8, 0xE2#8, 0x6D#8, 0x16#8, 0xDB#8]) =
      some (f8.reverse ++ List.replicate 8 0, 0x401005) := by decide +kernel

/-- V6a: merging keeps four old elements, and bits 511:256 become zero. -/
theorem test_evex256_merging :
    after 1#5 (step <| withK 1 0x0F#64 <| withV 1#5 (List.replicate 16 0xAAAAAAAA) <| withV 2#5 down8 <|
        withV 3#5 f8 <| machine [0x62#8, 0xF2#8, 0x6D#8, 0x29#8, 0x16#8, 0xCB#8]) =
      some ([0x41000000, 0x40E00000, 0x40C00000, 0x40A00000] ++ List.replicate 4 0xAAAAAAAA ++ List.replicate 8 0,
        0x401006) := by decide +kernel

/-- V7: four bytes are broadcast under a merging mask. -/
theorem test_evex256_broadcast :
    after 1#5 (step <| withBytes 0x7000#64 [0x78#8, 0x56#8, 0x34#8, 0x12#8] <| withG 0 0x7000#64 <| withK 2 0xA5#64 <|
        withV 1#5 (List.replicate 16 0xAAAAAAAA) <|
      withV 2#5 down8 <| machine [0x62#8, 0xF2#8, 0x6D#8, 0x3A#8, 0x16#8, 0x08#8]) =
      some ([0x12345678, 0xAAAAAAAA, 0x12345678, 0xAAAAAAAA, 0xAAAAAAAA, 0x12345678, 0xAAAAAAAA, 0x12345678] ++
        List.replicate 8 0, 0x401006) := by decide +kernel

/-- V12: zeroing in 512 bits. -/
theorem test_evex512_zeroing :
    after 1#5 (step <| withK 5 0xAAAA#64 <| withV 1#5 (List.replicate 16 0xDEADBEEF) <| withV 2#5 down16 <|
        withV 3#5 ((List.range 16).map (0x1000 + ·)) <|
      machine [0x62#8, 0xF2#8, 0x6D#8, 0xCD#8, 0x16#8, 0xCB#8]) =
      some ([0, 0x100E, 0, 0x100C, 0, 0x100A, 0, 0x1008, 0, 0x1006, 0, 0x1004, 0, 0x1002, 0, 0x1000],
        0x401006) := by decide +kernel

/-- V18: the 8-bit displacement counts 64 bytes; little-endian elements. -/
theorem test_evex512_memory :
    (after 1#5 (step <| withBytes 0x8040#64 ((List.range 64).map fun i => BitVec.ofNat 8 (0x40 + i)) <|
        withG 0 0x8000#64 <|
      withV 2#5 down16 <| machine [0x62#8, 0xF2#8, 0x6D#8, 0x48#8, 0x16#8, 0x48#8,
        0x01#8])).map (fun r => (r.1.take 3, r.1.drop 14, r.2)) =
      some ([0x7F7E7D7C, 0x7B7A7978, 0x77767574], [0x47464544, 0x43424140], 0x401007) := by decide +kernel

/-! ## Decoding: words written out from spec/30_encoding.md R64, R68 and the table E of spec/95_test_vectors.md -/

/-- E4 -/
theorem test_decode_vex256_sib :
    decode [0xC4#8, 0xE2#8, 0x6D#8, 0x16#8, 0x4C#8, 0x8B#8, 0x40#8] =
      .instr (.vpermpsVex256 [] 1#4 2#4 (.mem (.sib 3#4 1#4 2#2 (.disp8 0x40#8)))) := by decide

/-- E21, with the prefix of E26 -/
theorem test_decode_vex256_absolute :
    decode [0x64#8, 0xC4#8, 0xE2#8, 0x6D#8, 0x16#8, 0x0C#8, 0x25#8, 0x00#8, 0x10#8, 0x00#8, 0x00#8] =
      .instr (.vpermpsVex256 [.fs] 1#4 2#4 (.mem (.sibNoBase 4#4 0#2 0x1000#32))) := by decide

/-- E7 -/
theorem test_decode_evex256_zeroing :
    decode [0x62#8, 0xF2#8, 0x6D#8, 0xA9#8, 0x16#8, 0xCB#8] =
      .instr (.vpermpsEvex256 [] 1#5 2#5 (.zeroing .k1) (.reg 3#5)) := by decide

/-- E10 -/
theorem test_decode_evex256_high_registers :
    decode [0x62#8, 0xE2#8, 0x6D#8, 0x20#8, 0x16#8, 0x48#8, 0x01#8] =
      .instr (.vpermpsEvex256 [] 17#5 18#5 .noWritemask (.mem (.base 0#4 (.disp8 1#8)))) := by decide

/-- E13 -/
theorem test_decode_evex512_high_registers :
    decode [0x62#8, 0x02#8, 0x0D#8, 0x47#8, 0x16#8, 0xEF#8] =
      .instr (.vpermpsEvex512 [] 29#5 30#5 (.merging .k7) (.reg 31#5)) := by decide

/-- E15 -/
theorem test_decode_evex512_rip_relative :
    decode [0x62#8, 0xF2#8, 0x7D#8, 0x48#8, 0x16#8, 0x05#8, 0x08#8, 0x00#8, 0x00#8, 0x00#8] =
      .instr (.vpermpsEvex512 [] 0#5 0#5 .noWritemask (.mem (.ripRel 8#32))) := by decide

/-- X2, X6, X13, X15, X16, X20 and a truncated E1. -/
theorem test_decode_rejects :
    decode [0xC4#8, 0xE2#8, 0xED#8, 0x16#8, 0xCB#8] = .reject .illegal
      ∧ decode [0x62#8, 0xF2#8, 0x6D#8, 0xC8#8, 0x16#8, 0xCB#8] = .reject .illegal
      ∧ decode [0xF2#8, 0x62#8, 0xF2#8, 0x6D#8, 0x48#8, 0x16#8, 0xCB#8] = .reject .illegal
      ∧ decode [0x62#8, 0xF2#8, 0xED#8, 0x48#8, 0x16#8, 0xCB#8] = .reject .notVpermps
      ∧ decode [0xC5#8, 0xED#8, 0x16#8, 0xCB#8] = .reject .notVpermps
      ∧ decode [0x2E#8, 0x2E#8, 0x2E#8, 0x2E#8, 0x2E#8, 0x2E#8, 0x2E#8, 0x2E#8, 0x2E#8, 0x62#8, 0xF2#8, 0x6D#8,
        0x48#8, 0x16#8, 0x88#8, 0x41#8, 0x00#8, 0x00#8, 0x00#8] = .reject (.tooLong .evex512)
      ∧ decode [0xC4#8, 0xE2#8, 0x6D#8, 0x16#8] = .reject .unfinished := by decide

/-- E12 and E29 encode to the bytes of the table. -/
theorem test_encode :
    encode (.vpermpsEvex512 [] 1#5 2#5 .noWritemask (.mem (.base 0#4 (.disp32 0x41#32)))) =
        [0x62#8, 0xF2#8, 0x6D#8, 0x48#8, 0x16#8, 0x88#8, 0x41#8, 0x00#8, 0x00#8, 0x00#8]
      ∧ encode (.vpermpsEvex512 [] 1#5 2#5 .noWritemask (.mem (.sib 0#4 12#4 1#2 .none))) =
        [0x62#8, 0xB2#8, 0x6D#8, 0x48#8, 0x16#8, 0x0C#8, 0x60#8] := by decide

/-! ## Ill-formed terms that WellFormed refuses, one for each check -/

/-- A base register with low bits 100 needs an SIB byte (rsp, r12). -/
theorem test_wf_base_100 :
    (Instr.vpermpsVex256 [] 0#4 0#4 (.mem (.base 12#4 (.disp8 0#8)))).wf = false := by decide

/-- A base register with low bits 101 needs a displacement (rbp, r13). -/
theorem test_wf_base_101 :
    (Instr.vpermpsEvex256 [] 0#5 0#5 .noWritemask (.bcst (.base 13#4 .none))).wf = false := by decide

/-- The same with an SIB byte. -/
theorem test_wf_sib_101 :
    (Instr.vpermpsEvex512 [] 0#5 0#5 .noWritemask (.mem (.sib 5#4 1#4 0#2 .none))).wf = false := by decide

/-- X20: 19 bytes. -/
theorem test_wf_length :
    (Instr.vpermpsEvex512 (List.replicate 9 .cs) 1#5 2#5 .noWritemask (.mem (.base 0#4 (.disp32 0x41#32)))).wf =
        false := by decide

/-- X21: 15 bytes. -/
theorem test_wf_length_limit :
    (Instr.vpermpsEvex512 (List.replicate 5 .cs) 1#5 2#5 .noWritemask (.mem (.base 0#4 (.disp32 0x41#32)))).wf =
        true := by decide

/-! ## The launch of a table word -/

/-- The match words of the three rows, ModRM zero: operand 3 is `[r8]`, the register fields select 8, 15 (VEX) and 24, 31. -/
theorem test_table_words :
    decodeTableWord 32 0xC4020516 = some (.vpermpsVex256 [] 8#4 15#4 (.mem (.base 8#4 .none)))
      ∧ decodeTableWord 40 0x6202052016 = some (.vpermpsEvex256 [] 24#5 31#5 .noWritemask (.mem (.base 8#4 .none)))
      ∧ decodeTableWord 40 0x6202054016 =
        some (.vpermpsEvex512 [] 24#5 31#5 .noWritemask (.mem (.base 8#4 .none))) := by decide

/-- The first step after reset runs them. -/
theorem test_launch_after_reset :
    (step (State.reset.withFetchWord 32 0xC4020516) matches .next _)
      ∧ (step (State.reset.withFetchWord 40 0x6202052016) matches .next _)
      ∧ (step (State.reset.withFetchWord 40 0x6202054016) matches .next _) := by decide +kernel

/-! ## Witnesses: reset, launch, invariant -/

def e1 : List Byte := [0xC4#8, 0xE2#8, 0x6D#8, 0x16#8, 0xCB#8]
def e8 : List Byte := [0x62#8, 0xF2#8, 0x6D#8, 0x48#8, 0x16#8, 0xCB#8]
/-- E1 and E8 as terms. -/
def i1 : Instr := .vpermpsVex256 [] 1#4 2#4 (.reg 3#4)
def i8 : Instr := .vpermpsEvex512 [] 1#5 2#5 .noWritemask (.reg 3#5)
/-- A machine without AVX512. -/
def noAvx512 (s : State) : State := { s with cfg := { s.cfg with hasAvx512f := false, hasAvx512vl := false } }

theorem witness_BootStepsEnableEveryForm :
    State.reset.cfg.hasAvx2 = true ∧ State.reset.cfg.hasAvx512f = true ∧
        State.reset.cfg.hasAvx512vl = true := by decide +kernel

theorem witness_LaunchedWordRuns :
    decodeTableWord 40 0xC4E26D16CB = some i1
      ∧ (∀ j < (tableBytes 40 0xC4E26D16CB).length,
        (State.reset.withFetchWord 40 0xC4E26D16CB).canonical (State.reset.rip + BitVec.ofNat 64 j) = true)
      ∧ (tableBytes 40 0xC4E26D16CB).length < 2 ^ 64 := by decide +kernel

/-- The clause about `MAXVL` = 256 is not empty here. -/
theorem witness_StepKeepsInvariant :
    Inv (noAvx512 (machine e1)) ∧ (step (noAvx512 (machine e1)) matches .next _) :=
    ⟨⟨by unfold Memory.wf; decide +kernel, by unfold VectorsWithinMaxvl; decide +kernel⟩, by decide +kernel⟩

/-! ## Witnesses: encoding -/

theorem witness_DecodeOfEncode :
    i1.wf = true ∧ i8.wf = true := by decide

/-- Also for `DecodeReadsOnlyTheInstruction`. -/
theorem witness_DecodedInstructionsAreWellFormed :
    decode e1 = .instr i1 ∧ decode e8 = .instr i8 := by decide

/-- The words of E1, E6 and E8; and of the EVEX rows with `z` = 1, without and with a writemask. -/
theorem witness_TableRowsDecodeToTheirForm :
    0xC4E26D16 &&& 0xFF1F87FF = 0xC4020516
      ∧ (0x62F26D2916 &&& 0xFF0F8760FF = 0x6202052016 ∧ Nat.testBit 0x62F26D2916 15 = false)
      ∧ (0x62F26D4816 &&& 0xFF0F8760FF = 0x6202054016 ∧ Nat.testBit 0x62F26D4816 15 = false)
      ∧ (0x62F26DA816 &&& 0xFF0F8760FF = 0x6202052016 ∧ Nat.testBit 0x62F26DA816 15 = true ∧
        0x62F26DA816 >>> 8 % 8 = 0)
      ∧ (0x62F26DC816 &&& 0xFF0F8760FF = 0x6202054016 ∧ Nat.testBit 0x62F26DC816 15 = true ∧
        0x62F26DC816 >>> 8 % 8 = 0)
      ∧ 0x62F26DCF16 &&& 0xFF0F8760FF = 0x6202054016 ∧ 0x62F26DCF16 >>> 8 % 8 ≠ 0 := by decide

/-- ModRM bytes of a register, RIP-relative, base and SIB operand, an SIB byte without a base, two prefixes. -/
theorem witness_IgnoredExtensionBits :
    (∀ b ∈ [0x64#8, 0x66#8], classify b ≠ .other)
      ∧ (field 0xCB#8 6 2 = 3#2 ∨ field 0xCB#8 0 3 ≠ 4#3) ∧ (field 0x05#8 6 2 = 0#2 ∧ field 0x05#8 0 3 = 5#3)
      ∧ (field 0x0C#8 6 2 = 0#2 ∧ field 0x0C#8 0 3 = 4#3 ∧ field 0x25#8 0 3 = 5#3)
      ∧ field 0x48#8 6 2 ≠ 3#2 ∧ field 0x48#8 0 3 ≠ 4#3 := by decide

/-! ## Witnesses: fetch, decode and the step -/

/-- Every machine below is in 64-bit mode, not in 32-bit mode. -/
theorem machine_mode :
    ∀ code, (machine code).mode = .long64 := by
  simp [machine, State.enabled, State.mode, State.cr0PE, State.rflagsVM, State.eferLMA, State.reset]

theorem witness_StepRunsTheDecodedInstruction :
    (machine e8).mode ≠ .prot32 ∧ decode (machine e8).fetchBytes = .instr i8 := by decide +kernel

theorem witness_StepRunsTheEncodedInstruction :
    (machine (encode i8)).mode ≠ .prot32 ∧ i8.wf = true ∧ Fetches (machine (encode i8)) (encode i8) :=
    ⟨by decide +kernel, by decide +kernel, by unfold Fetches; decide +kernel⟩

/-- X1. -/
theorem witness_VexL0IsUd :
    (machine [0xC4#8, 0xE2#8, 0x69#8, 0x16#8, 0xCB#8]).fetchBytes =
        [] ++ (0xC4#8 :: 0xE2#8 :: 0x69#8 :: 0x16#8 :: [0xCB#8])
      ∧ readModRM (!bitOf 0xE2#8 6) (!bitOf 0xE2#8 5) [0xCB#8] = some (1#3, .reg 3#3)
      ∧ field 0xE2#8 0 5 = 0b00010#5 ∧ field 0x69#8 0 2 = 0b01#2 ∧ bitOf 0x69#8 7 = false ∧
        bitOf 0x69#8 2 = false := by decide +kernel

/-- X1 behind eleven prefixes: sixteen bytes. -/
theorem witness_VexL0IsUd_overlong :
    (machine (List.replicate 11 0x2E#8 ++ [0xC4#8, 0xE2#8, 0x69#8, 0x16#8, 0xCB#8])).fetchBytes =
      List.replicate 11 0x2E#8 ++ (0xC4#8 :: 0xE2#8 :: 0x69#8 :: 0x16#8 :: [0xCB#8])
      ∧ (∀ b ∈ List.replicate 11 0x2E#8, classify b ≠ .other)
      ∧ 15 < (List.replicate 11 0x2E#8).length + 5 + (RmOperand.reg 3#3).len := by decide +kernel

/-- X2. -/
theorem witness_ReservedFieldsAreUd_vexW :
    (machine [0xC4#8, 0xE2#8, 0xED#8, 0x16#8, 0xCB#8]).fetchBytes =
        [] ++ (0xC4#8 :: 0xE2#8 :: 0xED#8 :: 0x16#8 :: [0xCB#8])
      ∧ readModRM (!bitOf 0xE2#8 6) (!bitOf 0xE2#8 5) [0xCB#8] = some (1#3, .reg 3#3)
      ∧ field 0xE2#8 0 5 = 0b00010#5 ∧ field 0xED#8 0 2 = 0b01#2 ∧ bitOf 0xED#8 7 = true := by decide +kernel

/-- X3. -/
theorem witness_ReservedFieldsAreUd_length0 :
    (machine [0x62#8, 0xF2#8, 0x6D#8, 0x08#8, 0x16#8, 0xCB#8]).fetchBytes =
        [] ++ (0x62#8 :: 0xF2#8 :: 0x6D#8 :: 0x08#8 :: 0x16#8 :: 0xCB#8 :: [])
      ∧ readModRM (!bitOf 0xF2#8 6) (!bitOf 0xF2#8 5) [0xCB#8] = some (1#3, .reg 3#3)
      ∧ field 0xF2#8 0 2 = 0b10#2 ∧ field 0x6D#8 0 2 = 0b01#2 ∧ bitOf 0x6D#8 7 = false ∧
        field 0x08#8 5 2 = 0#2 := by decide +kernel

/-- X4. -/
theorem witness_ReservedFieldsAreUd_length3 :
    (machine [0x62#8, 0xF2#8, 0x6D#8, 0x68#8, 0x16#8, 0xCB#8]).fetchBytes =
        [] ++ (0x62#8 :: 0xF2#8 :: 0x6D#8 :: 0x68#8 :: 0x16#8 :: 0xCB#8 :: [])
      ∧ readModRM (!bitOf 0xF2#8 6) (!bitOf 0xF2#8 5) [0xCB#8] = some (1#3, .reg 3#3)
      ∧ field 0xF2#8 0 2 = 0b10#2 ∧ field 0x6D#8 0 2 = 0b01#2 ∧ bitOf 0x6D#8 7 = false ∧
        field 0x68#8 5 2 = 3#2 := by decide +kernel

/-- X5. -/
theorem witness_ReservedFieldsAreUd_broadcast :
    (machine [0x62#8, 0xF2#8, 0x6D#8, 0x58#8, 0x16#8, 0xCB#8]).fetchBytes =
        [] ++ (0x62#8 :: 0xF2#8 :: 0x6D#8 :: 0x58#8 :: 0x16#8 :: 0xCB#8 :: [])
      ∧ readModRM (!bitOf 0xF2#8 6) (!bitOf 0xF2#8 5) [0xCB#8] = some (1#3, .reg 3#3)
      ∧ field 0xF2#8 0 2 = 0b10#2 ∧ field 0x6D#8 0 2 = 0b01#2 ∧ bitOf 0x6D#8 7 = false ∧ bitOf 0x58#8 4 = true ∧
        field 0xCB#8 6 2 = 3#2 := by decide +kernel

/-- X6. -/
theorem witness_ReservedFieldsAreUd_zeroing :
    (machine [0x62#8, 0xF2#8, 0x6D#8, 0xC8#8, 0x16#8, 0xCB#8]).fetchBytes =
        [] ++ (0x62#8 :: 0xF2#8 :: 0x6D#8 :: 0xC8#8 :: 0x16#8 :: 0xCB#8 :: [])
      ∧ readModRM (!bitOf 0xF2#8 6) (!bitOf 0xF2#8 5) [0xCB#8] = some (1#3, .reg 3#3)
      ∧ field 0xF2#8 0 2 = 0b10#2 ∧ field 0x6D#8 0 2 = 0b01#2 ∧ bitOf 0x6D#8 7 = false ∧ bitOf 0xC8#8 7 = true ∧
        field 0xC8#8 0 3 = 0#3 := by decide +kernel

/-- X8. -/
theorem witness_ReservedFieldsAreUd_p0 :
    (machine [0x62#8, 0xFA#8, 0x6D#8, 0x48#8, 0x16#8, 0xCB#8]).fetchBytes =
        [] ++ (0x62#8 :: 0xFA#8 :: 0x6D#8 :: 0x48#8 :: 0x16#8 :: 0xCB#8 :: [])
      ∧ readModRM (!bitOf 0xFA#8 6) (!bitOf 0xFA#8 5) [0xCB#8] = some (1#3, .reg 3#3)
      ∧ field 0xFA#8 0 2 = 0b10#2 ∧ field 0x6D#8 0 2 = 0b01#2 ∧ bitOf 0x6D#8 7 = false ∧
        field 0xFA#8 2 2 ≠ 0#2 := by decide +kernel

/-- X9. -/
theorem witness_ReservedFieldsAreUd_p1 :
    (machine [0x62#8, 0xF2#8, 0x69#8, 0x48#8, 0x16#8, 0xCB#8]).fetchBytes =
        [] ++ (0x62#8 :: 0xF2#8 :: 0x69#8 :: 0x48#8 :: 0x16#8 :: 0xCB#8 :: [])
      ∧ readModRM (!bitOf 0xF2#8 6) (!bitOf 0xF2#8 5) [0xCB#8] = some (1#3, .reg 3#3)
      ∧ field 0xF2#8 0 2 = 0b10#2 ∧ field 0x69#8 0 2 = 0b01#2 ∧ bitOf 0x69#8 7 = false ∧
        bitOf 0x69#8 2 = false := by decide +kernel

/-- X10. -/
theorem witness_IllegalPrefixFaults :
    i1.encodable = true ∧ (machine ([0x66#8] ++ e1)).fetchBytes = [0x66#8] ++ encode i1 ++ []
      ∧ (∀ b ∈ [0x66#8], classify b ≠ .other) ∧ [0x66#8].length + i1.len ≤ 15 := by decide +kernel

/-- Sixteen bytes, eleven of them REX. -/
theorem witness_IllegalPrefixFaults_overlong :
    (machine (List.replicate 11 0x48#8 ++ e1)).fetchBytes = List.replicate 11 0x48#8 ++ encode i1 ++ []
      ∧ (∀ b ∈ List.replicate 11 0x48#8, classify b ≠ .other ∧ 0x40#8 ≤ b ∧ b ≤ 0x4F#8)
      ∧ 15 < (List.replicate 11 0x48#8).length + i1.len := by decide +kernel

/-- X20. -/
def i20 : Instr := .vpermpsEvex512 (List.replicate 9 .cs) 1#5 2#5 .noWritemask (.mem (.base 0#4 (.disp32 0x41#32)))

theorem witness_OverlongInstructionIsGp :
    i20.encodable = true ∧ 15 < i20.len ∧ (machine (encode i20)).mode ≠ .prot32
      ∧ Enabled (machine (encode i20)) (form i20) ∧ (machine (encode i20)).fetchBytes = encode i20 ++ [] := by
  unfold Enabled
  decide +kernel

/-- The same without AVX512F. -/
theorem witness_OverlongInstructionIsGp_disabled :
    (noAvx512 (machine (encode i20))).mode ≠ .prot32 ∧ ¬ Enabled (noAvx512 (machine (encode i20))) (form i20)
      ∧ (noAvx512 (machine (encode i20))).fetchBytes = encode i20 ++ [] := by
  unfold Enabled
  decide +kernel

/-- X16. -/
theorem witness_OtherInstructionsAreRefused :
    (machine [0xC5#8]).fetchBytes = [] ++ [0xC5#8] ∧ classify 0xC5#8 = .other := by decide +kernel

/-- X17, and the fields of X18 and X19. -/
theorem witness_OtherInstructionsAreRefused_vex :
    (machine [0xC4#8, 0xE1#8, 0x6D#8, 0x16#8, 0xCB#8]).fetchBytes =
      [] ++ (0xC4#8 :: 0xE1#8 :: 0x6D#8 :: 0x16#8 :: [0xCB#8]) ∧ field 0xE1#8 0 5 ≠ 0b00010#5
      ∧ field 0x6C#8 0 2 ≠ 0b01#2 ∧ (0x17#8 : Byte) ≠ 0x16#8 := by decide +kernel

/-- X15 behind a GS prefix, and two other fields. -/
theorem witness_OtherInstructionsAreRefused_evex :
    (machine [0x65#8, 0x62#8, 0xF2#8, 0xED#8, 0x48#8, 0x16#8, 0xCB#8]).fetchBytes =
      [0x65#8] ++ (0x62#8 :: 0xF2#8 :: 0xED#8 :: 0x48#8 :: 0x16#8 :: [0xCB#8]) ∧ classify 0x65#8 ≠ .other
      ∧ bitOf 0xED#8 7 = true ∧ field 0xF3#8 0 2 ≠ 0b10#2 ∧ field 0xEC#8 0 2 ≠ 0b01#2 := by decide +kernel

/-- The second byte is not mapped. -/
theorem witness_FetchFault :
    (machine [0xC4#8]).mode ≠ .prot32 ∧ Fetches (machine [0xC4#8]) [0xC4#8] ∧ decode [0xC4#8] = .reject .unfinished
      ∧ (machine [0xC4#8]).canonical ((machine [0xC4#8]).fetchAddr + BitVec.ofNat 64 1) = true
      ∧ (machine [0xC4#8]).translate .fetch ((machine [0xC4#8]).fetchAddr + BitVec.ofNat 64 1) =
        .pageFault 0x10#32 none :=
    ⟨by decide +kernel, by unfold Fetches; decide +kernel, by decide +kernel, by decide +kernel, by decide +kernel⟩

/-- The first byte is at a non-canonical address. -/
theorem witness_FetchFault_nonCanonical :
    Fetches { machine e1 with rip := 0x800000000000#64 } []
      ∧ { machine e1 with rip := 0x800000000000#64 }.canonical 0x800000000000#64 = false ∧
        decode [] = .reject .unfinished :=
    ⟨by unfold Fetches; decide +kernel, by decide +kernel, by decide +kernel⟩

/-- One region from the first byte of the instruction on. -/
def fetchRegion (ans : Answer) : State := { machine e1 with regions := [⟨0x401000, 0x1000, some .fetch, .every, ans⟩] }

/-- The other answers `Translate` can give for the first byte. -/
theorem witness_FetchFault_regions :
    (∀ ans, Fetches (fetchRegion ans) [])
      ∧ (fetchRegion .gp0).translate .fetch 0x401000#64 = .gp0 ∧ (fetchRegion .ss0).translate .fetch 0x401000#64 = .ss0
      ∧ (fetchRegion .device).translate .fetch 0x401000#64 = .device
      ∧ (fetchRegion (.pageFault 0xFFFFFFE9#32 (some 0x401002#64))).translate .fetch 0x401000#64 =
        .pageFault 0xFFFFFFF9#32 (some 0x401002#64) :=
  ⟨fun _ _ h => absurd h (Nat.not_lt_zero _), by decide +kernel, by decide +kernel, by decide +kernel, by decide +kernel⟩

theorem witness_Prot32IsRefused :
    { machine e1 with csL := false }.mode = .prot32 := by decide +kernel

/-! ## Witnesses: the computation -/

/-- The last element of each length; also for `MaskKeepsOrZeroes`. -/
theorem witness_PermuteSelectsElements :
    7 < VecLen.vl256.kl ∧ 15 < VecLen.vl512.kl := by decide

theorem witness_MaskKeepsOrZeroes :
    State.reset.k[OpmaskReg.k7.index].getLsbD 15 = false
      ∧ (withK 7 0x8000#64 State.reset).k[OpmaskReg.k7.index].getLsbD 15 = true
      ∧ ∀ (n : Fin 8), ∀ j < VecLen.vl512.kl,
        (withK 7 0x10000#64 State.reset).k[n].getLsbD j = State.reset.k[n].getLsbD j := by decide +kernel

theorem witness_IdentityAndSplat :
    (∀ j < VecLen.vl512.kl, indexOf .vl512 (vec (List.range 16)) j = j)
      ∧ ∀ j < VecLen.vl256.kl, indexOf .vl256 (vec (List.replicate 8 0xFFFFFFFF)) j = 7 := by decide +kernel

theorem witness_PermuteComposes :
    ∀ j < VecLen.vl512.kl, indexOf .vl512 (vec (List.range 16)) j =
      indexOf .vl512 (vec down16) (indexOf .vl512 (vec down16) j) := by decide +kernel

theorem witness_IndexModuloKl :
    ∀ j < VecLen.vl256.kl, (elem32 (vec (List.replicate 8 0xFFFFFFF8)) j).toNat % VecLen.vl256.kl =
      (elem32 (vec (List.replicate 8 0)) j).toNat % VecLen.vl256.kl := by decide +kernel

/-! ## Witnesses: completion and frames -/

/-- 64 bytes at 0x8003 that can be read, `rax` at the first of them. -/
def table : State := withBytes 0x8003#64 ((List.range 64).map fun i => BitVec.ofNat 8 i) <| withG 0 0x8003#64 <|
        machine e1

/-- The doubleword at an address whose bytes are mapped. -/
def dwordOf (s : State) (a : Quad) : Elem := s.byteAt (a + 3) ++ s.byteAt (a + 2) ++ s.byteAt (a + 1) ++ s.byteAt a

def dwordReadable (s : State) (a : Quad) : Bool :=
  [a, a + 1, a + 2, a + 3].all fun x => s.canonical x && decide (s.translate .read x = .ok (s.byteAt x))

theorem dwordAt_of {s : State} {a : Quad} (h : dwordReadable s a = true) : DwordAt s a (dwordOf s a) := by
  simp only [dwordReadable, List.all_cons, List.all_nil, Bool.and_true, Bool.and_eq_true, decide_eq_true_eq] at h
  obtain ⟨h0, h1, h2, h3⟩ := h
  exact ⟨_, _, _, _, h0, h1, h2, h3, rfl⟩

/-- `[rax]`. -/
def atRax : MemRef := .base 0#4 .none

/-- A register table. -/
theorem witness_Vex256Completes :
    Ready table .vex256 ∧
        TableIs table .vex256 [] 5 (fun j => elem32 (table.readV ((3#4).setWidth 5)) j) (VexTable.reg 3#4).widen :=
    ⟨by unfold Ready; decide +kernel, fun _ _ => rfl⟩

/-- A memory table. -/
theorem witness_Vex256Completes_memory :
    TableIs table .vex256 [] 5 (fun j => dwordOf table (0x8003#64 + BitVec.ofNat 64 (4 * j))) (VexTable.mem atRax).widen :=
    fun j hj => dwordAt_of ((by decide +kernel :
      ∀ j < 8, dwordReadable table (0x8003#64 + BitVec.ofNat 64 (4 * j)) = true) j hj)

/-- A register table. -/
theorem witness_Evex256Completes :
    Ready table .evex256 ∧ TableIs table .evex256 [] 6 (fun j => elem32 (table.readV 31#5) j) (.reg 31#5) :=
    ⟨by unfold Ready; decide +kernel, fun _ _ => rfl⟩

/-- A memory table. -/
theorem witness_Evex256Completes_memory :
    TableIs table .evex256 [] 6 (fun j => dwordOf table (0x8003#64 + BitVec.ofNat 64 (4 * j))) (.mem atRax) :=
    fun j hj => dwordAt_of ((by decide +kernel :
      ∀ j < 8, dwordReadable table (0x8003#64 + BitVec.ofNat 64 (4 * j)) = true) j hj)

/-- A broadcast table. -/
theorem witness_Evex256Completes_broadcast :
    TableIs table .evex256 [] 6 (fun _ => dwordOf table 0x8003#64) (.bcst atRax) :=
    ⟨by decide +kernel, _, dwordAt_of (by decide +kernel), fun _ _ => rfl⟩

/-- A register table. -/
theorem witness_Evex512Completes :
    Ready table .evex512 ∧ TableIs table .evex512 [] 6 (fun j => elem32 (table.readV 31#5) j) (.reg 31#5) :=
    ⟨by unfold Ready; decide +kernel, fun _ _ => rfl⟩

/-- A memory table. -/
theorem witness_Evex512Completes_memory :
    TableIs table .evex512 [] 6 (fun j => dwordOf table (0x8003#64 + BitVec.ofNat 64 (4 * j))) (.mem atRax) :=
    fun j hj => dwordAt_of ((by decide +kernel :
      ∀ j < 16, dwordReadable table (0x8003#64 + BitVec.ofNat 64 (4 * j)) = true) j hj)

/-- A broadcast table. -/
theorem witness_Evex512Completes_broadcast :
    TableIs table .evex512 [] 6 (fun _ => dwordOf table 0x8003#64) (.bcst atRax) :=
    ⟨by decide +kernel, _, dwordAt_of (by decide +kernel), fun _ _ => rfl⟩

/-- Also for `UpperBitsAreZeroed`. -/
theorem witness_CompletedFrame :
    (exec i1 table matches .next _) ∧ (exec i8 table matches .next _)
      ∧ (exec (.vpermpsEvex256 [] 1#5 2#5 (.zeroing .k7) (.bcst atRax)) table matches .next _) := by decide +kernel

theorem witness_RunChangesOnlyVectors :
    Host.Core.run core 2 (machine (e1 ++ e8)) matches .next _ := by decide +kernel

theorem witness_ZeroWritemask :
    (∀ j < 16, (withK 7 0xFFFF0000#64 table).k[OpmaskReg.k7.index].getLsbD j = false)
      ∧ (exec (.vpermpsEvex512 [] 1#5 2#5 (.merging .k7) (.mem atRax)) (withK 7 0xFFFF0000#64 table) matches .next _)
      ∧ (∀ j < 8, (withK 1 0xFF00#64 table).k[OpmaskReg.k1.index].getLsbD j = false)
      ∧ (exec (.vpermpsEvex256 [] 1#5 2#5 (.zeroing .k1) (.mem atRax)) (withK 1 0xFF00#64 table) matches .next _) := by decide +kernel

/-- Also for `Intrinsics256`. -/
theorem witness_VexAndEvexAgree :
    Ready table .vex256 ∧ Ready table .evex256 := by
  unfold Ready
  decide +kernel

theorem witness_Intrinsics512 :
    Ready table .evex512 := by
  unfold Ready
  decide +kernel

/-- CF, PF, AF, ZF, SF and OF set. -/
theorem witness_MxcsrAndFlagsNotRead :
    (0x8D5#64).getLsbD 17 = State.reset.rflags.getLsbD 17 ∧ (0x8D5#64).getLsbD 18 =
        State.reset.rflags.getLsbD 18 := by decide +kernel

/-- `ymm1, ymm2, [rax]` (E2), and E16 with the writemask `k2` and a broadcast. -/
def i2 : Instr := .vpermpsVex256 [] 1#4 2#4 (.mem atRax)
def i16 : Instr := .vpermpsEvex256 [] 1#5 2#5 (.merging .k2) (.bcst atRax)

/-- The byte behind the operand differs. -/
theorem witness_ReadsOnlyTheOperandBytes :
    memOperand i2 = some ([], atRax, false) ∧ Memory.set table.mem 0x8023 0xFF#8 ≠ table.mem
      ∧ ∀ k < operandBytes i2 ([], atRax, false),
        (Memory.set table.mem 0x8023 0xFF#8).get (byteAddr table i2 ([], atRax, false) k).toNat =
          table.mem.get (byteAddr table i2 ([], atRax, false) k).toNat := by decide +kernel

/-- Mask bit 8 differs. -/
theorem witness_ReadsOnlyTheMaskBits :
    writemaskOf i16 = some .k2 ∧ (∀ j < (form i16).vl.kl, (withK 2 0x100#64 table).k[OpmaskReg.k2.index].getLsbD j =
      table.k[OpmaskReg.k2.index].getLsbD j) := by decide +kernel

/-- `table` without the parameter `AC_CHECK`, its operand found elsewhere. -/
def relocated : State :=
  { withG 0 0x8003#64 table with
    regions := [⟨0x8000, 0x1000, some .read, .every, .location 0x8000#64⟩]
    cfg := { table.cfg with acCheck := false } }

theorem witness_NotPrivileged :
    (∀ r ∈ relocated.regions, r.levels = .every) ∧ (exec i2 relocated matches .next _) := by decide +kernel

/-! ## Witnesses: addresses -/

/-- The index register that an `X` bit tells from "no index"; E20 and E29 are instances. -/
theorem witness_LinearAddressShapes :
    (12#4 : GReg) ≠ 4#4 := by decide

theorem witness_AddressSizePrefix :
    LegacyPrefix.addr32 ∈ [LegacyPrefix.addr32, .fs] ∧ segmentOf [.addr32, .fs] atRax = .fs
      ∧ segmentOf [.addr32] (.base 5#4 (.disp8 0#8)) = .ss
      ∧ (∀ n, ((withG 0 0xFFFFFFFF00008003#64 table).readG n).setWidth 32 = (table.readG n).setWidth 32)
      ∧ (withG 0 0xFFFFFFFF00008003#64 table).rip.setWidth 32 = table.rip.setWidth 32 := by decide +kernel

/-- Each way a field is chosen: none, 8 bits (E9), 32 bits (E12), zero where a field is needed. -/
theorem witness_ShortestDisplacement :
    Disp.shortest (Form.evex512.dispScale false).toNat false 0#32 = .none
      ∧ (0x01#8).signExtend 64 * Form.evex512.dispScale false = (0x40#32).signExtend 64
      ∧ (∀ b : BitVec 8, b.signExtend 64 * Form.evex512.dispScale false ≠ (0x41#32).signExtend 64)
      ∧ (0x00#8).signExtend 64 * Form.evex512.dispScale false = (0#32).signExtend 64 := by decide

/-- Both sides of both limits, with 48 and with 57 bits (R46). -/
theorem witness_CanonicalAddress :
    State.reset.canonical 0x00007FFFFFFFFFFF#64 = true ∧ State.reset.canonical 0x0000800000000000#64 = false
      ∧ State.reset.canonical 0xFFFF800000000000#64 = true ∧ State.reset.canonical 0xFFFF7FFFFFFFFFFF#64 = false
      ∧ { State.reset with cr4 := 1#64 <<< 12 }.canonical 0x00FFFFFFFFFFFFFF#64 = true
      ∧ { State.reset with cr4 := 1#64 <<< 12 }.canonical 0x0100000000000000#64 = false := by decide +kernel

/-- The last VEX register and the first that needs EVEX (E1, E5). -/
theorem witness_AssemblerChoosesForm :
    assemble .vl256 [] 15#5 2#5 .noWritemask (.reg 3#5) = .vpermpsVex256 [] 15#4 2#4 (.reg 3#4)
      ∧ assemble .vl256 [] 16#5 2#5 .noWritemask (.mem atRax) = .vpermpsEvex256 [] 16#5 2#5 .noWritemask (.mem atRax)
      ∧ (EvexTable.mem atRax).wf = true := by decide

/-- The spellings of E14 and E5. -/
theorem test_syntax :
    (Instr.vpermpsEvex512 [] 10#5 20#5 (.zeroing .k3) (.mem (.sib 8#4 9#4 3#2 (.disp8 4#8)))).intel =
        "VPERMPS zmm10" ++ braced "k3" ++ braced "z" ++ ", zmm20, zmmword ptr [r8+r9*8+0x100]"
      ∧ (Instr.vpermpsEvex512 [] 10#5 20#5 (.zeroing .k3) (.mem (.sib 8#4 9#4 3#2 (.disp8 4#8)))).att =
        "vpermps 0x100(%r8,%r9,8), %zmm20, %zmm10" ++ braced "%k3" ++ braced "z"
      ∧ (Instr.vpermpsEvex256 [] 1#5 2#5 .noWritemask (.reg 3#5)).att =
        braced "evex" ++ " vpermps %ymm3, %ymm2, %ymm1" := by decide +kernel

/-! ## Witnesses: exceptions -/

/-- At reset nothing is mapped at the reset vector. -/
theorem witness_FaultsRecordTheInstruction :
    faultOf (exec i1 State.reset) = some (.ud 0xFFF0#64)
      ∧ faultOf (step State.reset) = some (.pf 0xFFF0#64 0x10#32 0xFFFFFFF0#64) := by decide +kernel

theorem witness_DisabledFormsAreUd :
    State.reset.mode = .realAddress ∧ { table with rflags := 1#64 <<< 17 }.mode = .virtual8086
      ∧ table.mode = .long64 ∧ { table with cr4 := 0#64 }.cr4.getLsbD 18 = false
      ∧ { table with xcr0 := 3#64 }.xcr0.getLsbD 2 = false ∧ { table with xcr0 := 7#64 }.xcr0.getLsbD 5 = false
      ∧ (noAvx512 table).cfg.hasAvx512vl = false ∧ { table.cfg with hasAvx2 := false }.hasAvx2 =
        false := by decide +kernel

theorem witness_TaskSwitchedIsNm :
    { table with cr0 := 9#64 }.mode = .long64 ∧ { table with cr0 := 9#64 }.hasForm (form i8) = true
      ∧ { table with cr0 := 9#64 }.osEnabled (form i8) = true ∧
        { table with cr0 := 9#64 }.cr0.getLsbD 3 = true := by decide +kernel

/-- `ymm8, ymm0, [rsp+0x20]` (E20) and its state in V21; the state of V20. -/
def i20s : Instr := .vpermpsVex256 [] 8#4 0#4 (.mem (.sib 4#4 4#4 0#2 (.disp8 0x20#8)))
def v20 : State := withG 0 0x0000800000000000#64 (machine e1)
def v21 : State := withG 4 0x00007FFFFFFFFFF0#64 (machine e1)
/-- V22: sixteen bytes at 0x9FF0, nothing behind them. -/
def v22 : State := withBytes 0x9FF0#64 (List.replicate 16 0x5A#8) (withG 0 0x9FF0#64 (machine e1))

/-- V20, by the last byte of the operand. -/
theorem witness_NonCanonicalOperandFaults :
    Ready v20 (form i2) ∧ memOperand i2 = some ([], atRax, false) ∧ 31 < operandBytes i2 ([], atRax, false)
      ∧ v20.canonical (byteAddr v20 i2 ([], atRax, false) 31) = false ∧ segmentOf [] atRax ≠ .ss := by
  unfold Ready
  decide +kernel

/-- V21. -/
theorem witness_NonCanonicalOperandFaults_stack :
    Ready v21 (form i20s) ∧ memOperand i20s = some ([], .sib 4#4 4#4 0#2 (.disp8 0x20#8), false)
      ∧ v21.canonical (byteAddr v21 i20s ([], .sib 4#4 4#4 0#2 (.disp8 0x20#8), false) 0) = false
      ∧ segmentOf [] (.sib 4#4 4#4 0#2 (.disp8 0x20#8)) = .ss := by
  unfold Ready
  decide +kernel

/-- What the page-fault statement asks of the other bytes of the operand at `rax`. -/
def others (s : State) (a : Quad) : Bool :=
  s.canonical a && decide (s.translate .read a ≠ .device ∧ s.translate .read a ≠ .gp0 ∧ s.translate .read a ≠ .ss0)

/-- V22: the first byte behind the mapped ones. -/
theorem witness_OperandPageFault :
    Ready v22 (form i2)
      ∧ (∀ j < operandBytes i2 ([], atRax, false), others v22 (byteAddr v22 i2 ([], atRax, false) j) = true)
      ∧ v22.translate .read (byteAddr v22 i2 ([], atRax, false) 16) = .pageFault 0#32 none := by
  unfold Ready
  decide +kernel

/-- Regions from 0x8000 on, where the table stands: `[rax]` reads from 0x8003. -/
def withRegions (rs : List Region) : State := { table with regions := rs }
/-- One page at the table, for both accesses and every level. -/
def withAnswer (ans : Answer) : State := withRegions [⟨0x8000, 0x1000, none, .every, ans⟩]
/-- CPL 3 and a supervisor page at the table; `Translate` names the address of the last byte of the operand. -/
def user : State := { withRegions [⟨0x8000, 0x1000, none, .user, .pageFault 1#32 (some 0x8022#64)⟩] with cpl := 3#2 }

theorem witness_OperandPageFault_protection :
    Ready user (form i2)
      ∧ (∀ j < operandBytes i2 ([], atRax, false), others user (byteAddr user i2 ([], atRax, false) j) = true)
      ∧ user.translate .read (byteAddr user i2 ([], atRax, false) 0) = .pageFault 5#32 (some 0x8022#64) := by
  unfold Ready
  decide +kernel

/-- The first bytes of the operand answer #GP(0), the last #SS(0). -/
def mixed : State := withRegions [⟨0x8000, 0x10, some .read, .every, .gp0⟩, ⟨0x8010, 0x1000, some .read, .every, .ss0⟩]

/-- An operand without a region, with a region elsewhere, under a first and a second region, at its last address and behind
it, at both levels, found elsewhere. -/
theorem witness_TranslateAnswers :
    v22.regions = [] ∧ v22.mem.get (0xA000#64).toNat = none ∧ v22.mem.get (0x9FFF#64).toNat = some 0x5A#8
      ∧ (withAnswer .device).translate .read 0x8FFF#64 = .device
      ∧ (withAnswer .device).translate .read 0x9000#64 = .pageFault 0#32 none
      ∧ mixed.translate .read 0x800F#64 = .gp0 ∧ mixed.translate .read 0x8010#64 = .ss0
      ∧ mixed.translate .fetch 0x8010#64 = .ok 13#8
      ∧ { user with cpl := 2#2 }.translate .read 0x8003#64 = .ok 0#8
      ∧ (withAnswer (.location 0x8003#64)).translate .read 0x8001#64 = .ok 1#8 := by decide +kernel

/-- Both answers in one operand, and each alone. -/
theorem witness_TranslateAddressFaults :
    Ready mixed (form i2)
      ∧ (∀ j < operandBytes i2 ([], atRax, false), mixed.canonical (byteAddr mixed i2 ([], atRax, false) j) = true ∧
        mixed.translate .read (byteAddr mixed i2 ([], atRax, false) j) ≠ .device)
      ∧ mixed.translate .read (byteAddr mixed i2 ([], atRax, false) 0) = .gp0
      ∧ mixed.translate .read (byteAddr mixed i2 ([], atRax, false) 31) = .ss0
      ∧ (∀ j < operandBytes i2 ([], atRax, false),
        (withAnswer .gp0).translate .read (byteAddr (withAnswer .gp0) i2 ([], atRax, false) j) = .gp0 ∧
          (withAnswer .ss0).translate .read (byteAddr (withAnswer .ss0) i2 ([], atRax, false) j) = .ss0) := by
  unfold Ready
  decide +kernel

/-- One answer alone (R47). -/
theorem test_translate_address_faults :
    faultOf (exec i2 (withAnswer .gp0)) = some (.gp0 0x401000#64)
      ∧ faultOf (exec i2 (withAnswer .ss0)) = some (.ss0 0x401000#64) := by decide +kernel

theorem witness_DeviceOperandIsRefused :
    Ready (withAnswer .device) (form i2)
      ∧ (∀ j < operandBytes i2 ([], atRax, false),
        (withAnswer .device).canonical (byteAddr (withAnswer .device) i2 ([], atRax, false) j) = true)
      ∧ (withAnswer .device).translate .read (byteAddr (withAnswer .device) i2 ([], atRax, false) 31) = .device := by
  unfold Ready
  decide +kernel

/-- CR0.AM, RFLAGS.AC and CPL 3, `rax` not a multiple of four. -/
def checked : State := { table with cr0 := 0x40001#64, rflags := 0x40002#64, cpl := 3#2 }

/-- The check applies; with CPL 2 it does not. -/
theorem witness_AlignmentCheckIsAChoice :
    Ready checked (form i16) ∧ memOperand i16 = some ([], atRax, true)
      ∧ checked.mayCheckAlignment (operandAddr checked i16 ([], atRax, true)) = true
      ∧ { checked with cpl := 2#2 }.cpl ≠ 3#2 ∧ memOperand i2 = some ([], atRax, false) ∧ memOperand i8 = none := by
  unfold Ready
  decide +kernel

/-- One run that ends at its end address, one that ends in a fault (P4), one in a refusal; and states whose step answers each
away from the end address. -/
theorem witness_EndedRunStaysEnded :
    (runTo 0x40100B#64 2 (machine (e1 ++ e8)) matches some (.next _))
      ∧ (runTo 0x40100B#64 2 (machine (e1 ++ [0xC4#8, 0xE2#8, 0x69#8, 0x16#8,
        0xCB#8])) matches some (.fault _))
      ∧ (runTo 0x40100B#64 2 (machine (e1 ++ [0x90#8])) matches some (.refused _))
      ∧ (machine e1).rip ≠ 0x40100B#64 ∧ (step (machine e1) matches .next _)
      ∧ (step (machine [0xC4#8, 0xE2#8, 0x69#8, 0x16#8, 0xCB#8]) matches .fault _)
      ∧ (step (machine [0x90#8]) matches .refused _)
      ∧ { machine e1 with rip := 0x40100B#64 }.rip = 0x40100B#64 := by decide +kernel

end Sys2Proof.Tests
end

/-! PROOFS. The statements about the state: what a step leaves alone, what it keeps, what it does not read, and which
instruction it runs. -/

namespace Sys2Proof.Proofs

open Sys2Proof.Machine Sys2Proof.Spec

/-! ## One instruction, through the shared meaning -/

/-- `exec_eq_vpermps` with the form and the writemask named in the vocabulary of the statements. -/
theorem exec_eq_vpermps_form (i : Instr) : ∃ ps s1 msk tbl, maskReg msk = writemaskOf i ∧
    ∀ s, exec i s = vpermps (form i) ps (dest i) s1 msk tbl i.len s := by
  cases i with
  | vpermpsVex256 ps d s1 tbl => exact ⟨_, _, .noWritemask, _, rfl, fun _ => rfl⟩
  | vpermpsEvex256 ps d s1 msk tbl => exact ⟨_, _, msk, _, rfl, fun _ => rfl⟩
  | vpermpsEvex512 ps d s1 msk tbl => exact ⟨_, _, msk, _, rfl, fun _ => rfl⟩

/-- A completed instruction: its form was enabled, its destination is written, `rip` advances, and that is all. -/
theorem exec_next_form {i : Instr} {s t : State} (h : exec i s = .next t) :
    s.enablingStop (form i) = none ∧ ∃ x, t = (s.writeV (dest i) x).retire i.len := by
  obtain ⟨ps, s1, msk, tbl, -, hi⟩ := exec_eq_vpermps_form i
  rw [hi] at h
  obtain ⟨hstop, x, -, ht⟩ := vpermps_next h
  exact ⟨hstop, _, ht⟩

/-! ## Frames -/

theorem frame_writeV_retire (s : State) (d : BitVec 5) (x : Vec) (len : Nat) :
    Frame s ((s.writeV d x).retire len) d len := by
  refine ⟨fun n hn => ?_, ?_⟩
  · rw [State.readV_retire, State.readV_writeV_other s hn]
  · simp

/-- Settles O32: the one write of a completed instruction has this frame. -/
theorem completedFrame : Obligations.CompletedFrame := by
  intro i s t h
  obtain ⟨-, x, rfl⟩ := exec_next_form h
  exact frame_writeV_retire s (dest i) x i.len

/-- `t` is `s` but for the vector registers, `rip` and the model's own counter. -/
def OnlyVectorsDiffer (s t : State) : Prop :=
  ∃ v rip ix, t = { s with v := v, rip := rip, freeIx := ix }

theorem OnlyVectorsDiffer.refl (s : State) : OnlyVectorsDiffer s s := ⟨s.v, s.rip, s.freeIx, rfl⟩

theorem OnlyVectorsDiffer.trans {s t u : State} (hst : OnlyVectorsDiffer s t) (htu : OnlyVectorsDiffer t u) :
    OnlyVectorsDiffer s u := by
  obtain ⟨_, _, _, rfl⟩ := hst
  obtain ⟨v, rip, ix, rfl⟩ := htu
  exact ⟨v, rip, ix, rfl⟩

theorem onlyVectorsDiffer_of_step {s t : State} (h : step s = .next t) : OnlyVectorsDiffer s t := by
  obtain ⟨i, -, hi⟩ := step_next h
  obtain ⟨-, x, rfl⟩ := exec_next_form hi
  exact ⟨_, _, _, rfl⟩

/-- A run that answers a next state took a step that did, and ran on from there. -/
theorem run_succ_next {M : Host.Core} {n : Nat} {s u : M.State} (h : M.run (n + 1) s = .next u) :
    ∃ t, M.step s = .next t ∧ M.run n t = .next u := by
  rw [Host.Core.run] at h
  split at h
  case h_1 t ht => exact ⟨t, ht, h⟩
  case h_2 => cases h
  case h_3 => cases h

theorem onlyVectorsDiffer_of_run {n : Nat} {s t : State} (h : Host.Core.run core n s = .next t) :
    OnlyVectorsDiffer s t := by
  induction n generalizing s with
  | zero =>
    cases h
    exact .refl _
  | succ n ih =>
    obtain ⟨u, hstep, hrun⟩ := run_succ_next h
    exact (onlyVectorsDiffer_of_step hstep).trans (ih hrun)

/-- Settles O33, by induction on the number of steps. -/
theorem runChangesOnlyVectors : Obligations.RunChangesOnlyVectors := by
  intro n s t h
  obtain ⟨_, _, _, rfl⟩ := onlyVectorsDiffer_of_run h
  simp

/-! ## The invariant -/

/-- Without AVX512F a written register has 256 bits (spec/40_vpermps.md R110). -/
theorem truncV_ushiftRight {s : State} (hf : s.cfg.hasAvx512f = false) (x : Vec) : s.truncV x >>> 256 = 0#512 := by
  refine BitVec.eq_of_getLsbD_eq fun i _ => ?_
  rw [BitVec.getLsbD_ushiftRight, getLsbD_truncV]
  simp [State.maxvl, hf]

/-- Without AVX512F only the VEX form runs, and it names the registers 0 to 15 (spec/10_state.md R21, R22). -/
theorem dest_lt_of_hasForm {i : Instr} {s : State} (hf : s.cfg.hasAvx512f = false) (hform : s.hasForm (form i) = true) :
    (dest i).toNat < 16 := by
  cases i with
  | vpermpsVex256 ps d s1 tbl => simpa [dest] using Nat.lt_of_le_of_lt (Nat.mod_le _ _) d.isLt
  | vpermpsEvex256 ps d s1 msk tbl => simp [form, State.hasForm, hf] at hform
  | vpermpsEvex512 ps d s1 msk tbl => simp [form, State.hasForm, hf] at hform

/-- A write to one of the registers the machine has keeps the vector registers within `MAXVL`. -/
theorem vectorsWithinMaxvl_writeV {s : State} {d : BitVec 5} (hs : VectorsWithinMaxvl s)
    (hd : s.cfg.hasAvx512f = false → d.toNat < 16) (x : Vec) : VectorsWithinMaxvl (s.writeV d x) := by
  intro hf n
  by_cases hn : n = d
  · subst hn
    rw [State.readV_writeV_same]
    exact ⟨truncV_ushiftRight hf x, fun h => absurd (hd hf) (Nat.not_lt.2 h)⟩
  · rw [State.readV_writeV_other s hn]
    exact hs hf n

/-- Settles O6: no byte is mapped at reset, and the machine of the reset state has AVX512F. -/
theorem invariantHoldsAtReset : Obligations.InvariantHoldsAtReset := by
  refine ⟨?_, fun hf => ?_⟩
  · exact ⟨.nil, by simp [State.reset]⟩
  · simp [State.reset] at hf

/-- Settles O7: the step wrote one register, and without AVX512F only a form with a destination below 16 can have
completed. -/
theorem stepKeepsInvariant : Obligations.StepKeepsInvariant := by
  rintro s t ⟨hmem, hvec⟩ hstep
  obtain ⟨i, -, hi⟩ := step_next hstep
  obtain ⟨hstop, x, rfl⟩ := exec_next_form hi
  obtain ⟨-, hform, -, -⟩ := enablingStop_eq_none.1 hstop
  exact ⟨hmem, vectorsWithinMaxvl_writeV hvec (fun hf => dest_lt_of_hasForm hf hform) x⟩

/-! ## What is not read -/

@[simp] theorem mapNext_stop (g : State → State) (st : Stop) : mapNext g st.outcome = st.outcome := by
  cases st <;> rfl

/-- When the enabling checks and the table are the same, and the completed states correspond by `g`, so do the outcomes. -/
theorem vpermps_eq_mapNext {f : Form} {ps : List LegacyPrefix} {d s1 : BitVec 5} {msk : Masking} {tbl : EvexTable}
    {len : Nat} {s s' : State} {g : State → State} (hstop : s'.enablingStop f = s.enablingStop f)
    (htable : s'.sourceTable f ps len tbl = s.sourceTable f ps len tbl)
    (hdone : ∀ x, (s'.writeV d (s'.result f d s1 msk x)).retire len =
      g ((s.writeV d (s.result f d s1 msk x)).retire len)) :
    vpermps f ps d s1 msk tbl len s' = mapNext g (vpermps f ps d s1 msk tbl len s) := by
  simp only [vpermps, hstop, htable]
  cases s.enablingStop f with
  | some st => simp
  | none =>
    cases s.sourceTable f ps len tbl with
    | error st => simp
    | ok x => simp [mapNext, hdone]

/-- `ApplyMask` reads bits `KL-1:0` of the register the writemask names (spec/40_vpermps.md R106). -/
theorem applyMask_congr {vl : VecLen} {msk : Masking} {k k' : Vector Opmask 8}
    (h : ∀ r, ∀ j < vl.kl, maskReg msk = some r → k'[r.index].getLsbD j = k[r.index].getLsbD j) (tmp old : Vec) :
    applyMask vl tmp old msk k' = applyMask vl tmp old msk k := by
  refine ofElems_congr fun j hj => ?_
  cases msk with
  | noWritemask => rfl
  | merging r => simp only [h r j hj rfl]
  | zeroing r => simp only [h r j hj rfl]

/-- Settles O36: the opmask registers enter through `ApplyMask` alone. -/
theorem readsOnlyTheMaskBits : Obligations.ReadsOnlyTheMaskBits := by
  intro i s k hk
  obtain ⟨ps, s1, msk, tbl, hmsk, hi⟩ := exec_eq_vpermps_form i
  rw [hi, hi]
  refine vpermps_eq_mapNext rfl (by cases tbl <;> rfl) fun x => ?_
  have hres : { s with k := k }.result (form i) (dest i) s1 msk x = s.result (form i) (dest i) s1 msk x :=
    applyMask_congr (fun r j hj hr => hk r j hj (hmsk ▸ hr)) _ _
  rw [hres]
  rfl

/-- The mode reads RFLAGS.VM alone of RFLAGS. -/
theorem mode_with_flags (s : State) (m : BitVec 32) {r : BitVec 64} (hvm : r.getLsbD 17 = s.rflags.getLsbD 17) :
    { s with mxcsr := m, rflags := r }.mode = s.mode := by
  simp only [State.mode, State.rflagsVM, hvm]
  rfl

/-- The alignment check reads RFLAGS.AC alone of RFLAGS. -/
theorem mayCheckAlignment_with_flags (s : State) (m : BitVec 32) {r : BitVec 64}
    (hac : r.getLsbD 18 = s.rflags.getLsbD 18) (la : Quad) :
    { s with mxcsr := m, rflags := r }.mayCheckAlignment la = s.mayCheckAlignment la := by
  simp only [State.mayCheckAlignment, State.alignmentChecked, State.rflagsAC, hac]
  rfl

theorem enablingStop_with_flags (s : State) (m : BitVec 32) {r : BitVec 64} (hvm : r.getLsbD 17 = s.rflags.getLsbD 17)
    (f : Form) : { s with mxcsr := m, rflags := r }.enablingStop f = s.enablingStop f := by
  simp only [State.enablingStop, State.disabled, mode_with_flags s m hvm]
  rfl

theorem sourceTable_with_flags (s : State) (m : BitVec 32) {r : BitVec 64} (hac : r.getLsbD 18 = s.rflags.getLsbD 18)
    (f : Form) (ps : List LegacyPrefix) (len : Nat) (tbl : EvexTable) :
    { s with mxcsr := m, rflags := r }.sourceTable f ps len tbl = s.sourceTable f ps len tbl := by
  cases tbl with
  | reg n => rfl
  | mem a => rfl
  | bcst a =>
    simp only [State.sourceTable, mayCheckAlignment_with_flags s m hac]
    rfl

/-- Settles O40: of the two registers only VM and AC are read, by the enabling checks and the alignment check. -/
theorem mxcsrAndFlagsNotRead : Obligations.MxcsrAndFlagsNotRead := by
  intro i s m r hvm hac
  obtain ⟨ps, s1, msk, tbl, -, hi⟩ := exec_eq_vpermps_form i
  rw [hi, hi]
  exact vpermps_eq_mapNext (enablingStop_with_flags s m hvm _) (sourceTable_with_flags s m hac _ ps _ tbl) fun _ => rfl

/-! ## Which instruction a step runs -/

/-- Settles O15: the decoder's answer is the instruction that `step` hands to `exec`. -/
theorem stepRunsTheDecodedInstruction : Obligations.StepRunsTheDecodedInstruction :=
  fun _ _ hm hd => step_instr hm hd

/-- `C4` behind accepted prefixes is decoded as VEX (R97). -/
theorem decode_vex (ps : List LegacyPrefix) (rest : List Byte) :
    decode (ps.map LegacyPrefix.byte ++ 0xC4#8 :: rest) = decodeVex ⟨ps, ps.length, false⟩ rest := by
  simp [decode, scanPrefixes_map, scanPrefixes_other classify_escape.1]

/-- `62` behind accepted prefixes is decoded as EVEX (R97). -/
theorem decode_evex (ps : List LegacyPrefix) (rest : List Byte) :
    decode (ps.map LegacyPrefix.byte ++ 0x62#8 :: rest) = decodeEvex ⟨ps, ps.length, false⟩ rest := by
  simp [decode, scanPrefixes_map, scanPrefixes_other classify_escape.2]

/-- A well-formed instruction has an encoding, of at most 15 bytes (R83). -/
theorem wf_iff {i : Instr} : i.wf = true ↔ i.encodable = true ∧ i.len ≤ maxLen := by
  simp [Instr.wf]

/-- Decoding the encoding of a well-formed instruction gives the instruction, whatever follows it. -/
theorem decode_encode_append {i : Instr} (hi : i.wf = true) (rest : List Byte) :
    decode (encode i ++ rest) = .instr i := by
  obtain ⟨htbl, hlen⟩ := wf_iff.1 hi
  have hset : settle i = .instr i := if_pos hlen
  cases i with
  | vpermpsVex256 ps d s1 tbl =>
    rw [encode, List.append_assoc]
    exact (decode_vex ps _).trans ((decodeVex_encodeVex _ d s1 tbl htbl rest).trans hset)
  | vpermpsEvex256 ps d s1 msk tbl =>
    rw [encode, List.append_assoc]
    exact (decode_evex ps _).trans ((decodeEvex_encodeEvex _ 1#2 (.inl rfl) d s1 msk tbl htbl rest).trans hset)
  | vpermpsEvex512 ps d s1 msk tbl =>
    rw [encode, List.append_assoc]
    exact (decode_evex ps _).trans ((decodeEvex_encodeEvex _ 2#2 (.inr rfl) d s1 msk tbl htbl rest).trans hset)

theorem encode_length (i : Instr) : (encode i).length = i.len := by
  cases i with
  | vpermpsVex256 ps d s1 tbl => exact Laws.EncodeLength.vpermpsVex256 ps d s1 tbl
  | vpermpsEvex256 ps d s1 msk tbl => exact Laws.EncodeLength.vpermpsEvex256 ps d s1 msk tbl
  | vpermpsEvex512 ps d s1 msk tbl => exact Laws.EncodeLength.vpermpsEvex512 ps d s1 msk tbl

/-- Bytes that can be fetched at the instruction pointer begin what is fetched there. -/
theorem fetchBytes_of_fetches {s : State} {bs : List Byte} (hlen : bs.length ≤ fetchLimit) (h : Fetches s bs) :
    ∃ rest, s.fetchBytes = bs ++ rest :=
  ⟨_, s.fetchFrom_append bs fetchLimit s.fetchAddr hlen h⟩

/-- Settles O16: the fetched bytes begin with the encoding, and the decoder reads the instruction back. -/
theorem stepRunsTheEncodedInstruction : Obligations.StepRunsTheEncodedInstruction := by
  intro s i hm hwf hfetch
  obtain ⟨-, hlen⟩ := wf_iff.1 hwf
  have hlimit : (encode i).length ≤ fetchLimit := by
    rw [encode_length]
    exact hlen.trans (by decide)
  obtain ⟨rest, hrest⟩ := fetchBytes_of_fetches hlimit hfetch
  exact step_instr hm (hrest ▸ decode_encode_append hwf rest)

end Sys2Proof.Proofs

/-! PROOFS. The statements about memory: canonical addresses, what `Translate` answers, and the read of a memory operand with
its faults. -/

namespace Sys2Proof.Proofs

open Sys2Proof.Machine Sys2Proof.Spec

/-! ## Canonical addresses (spec/20_memory.md R46) -/

theorem getLsbD_eq_testBit_shiftRight (a : Quad) {m k : Nat} (h : m ≤ k) :
    a.getLsbD k = (a.toNat >>> m).testBit (k - m) := by
  rw [Nat.testBit_shiftRight, Nat.add_sub_cancel' h, BitVec.testBit_toNat]

/-- The bits from `m` on are all alike exactly when, shifted down, they are the number 0 or the number of all ones. -/
theorem shiftRight_zero_or_ones_iff (a : Quad) {m : Nat} (hm : m < 64) :
    (a.toNat >>> m = 0 ∨ a.toNat >>> m = 2 ^ (64 - m) - 1) ↔
      ∀ k, m + 1 ≤ k → k < 64 → a.getLsbD k = a.getLsbD m := by
  constructor
  · rintro h k hmk hk
    rw [getLsbD_eq_testBit_shiftRight a (show m ≤ k by omega), getLsbD_eq_testBit_shiftRight a (Nat.le_refl m)]
    rcases h with h | h <;> rw [h]
    · simp
    · simp only [Nat.testBit_two_pow_sub_one, decide_eq_decide]
      omega
  · intro h
    have hbit : ∀ j, (a.toNat >>> m).testBit j = (decide (j < 64 - m) && a.getLsbD m) := by
      intro j
      rw [Nat.testBit_shiftRight, BitVec.testBit_toNat]
      by_cases hj : j < 64 - m
      · rcases Nat.eq_zero_or_pos j with rfl | hpos
        · simp [hj]
        · simp [hj, h (m + j) (by omega) (by omega)]
      · simp [hj, BitVec.getLsbD_of_ge a (m + j) (by omega)]
    cases hb : a.getLsbD m with
    | false => exact .inl (Nat.eq_of_testBit_eq fun j => by simp [hbit, hb])
    | true => exact .inr (Nat.eq_of_testBit_eq fun j => by simp [hbit, hb, Nat.testBit_two_pow_sub_one])

/-- Settles O46: the two shifted values that `canonical` accepts are those whose bits are all alike. -/
theorem canonicalAddress : Obligations.CanonicalAddress := by
  intro s a
  unfold State.canonical State.laBits State.cr4LA57
  cases s.cr4.getLsbD 12 with
  | false => simpa using shiftRight_zero_or_ones_iff a (m := 47) (by decide)
  | true => simpa using shiftRight_zero_or_ones_iff a (m := 56) (by decide)

/-! ## What `Translate` answers (spec/20_memory.md R47) -/

theorem region_applies_iff {r : Region} {acc : Access} {cpl : BitVec 2} {a : Quad} :
    r.applies acc cpl a = true ↔ r.base ≤ a.toNat ∧ a.toNat < r.base + r.size ∧
      (r.access = none ∨ r.access = some acc) ∧ r.levels.has cpl = true := by
  simp [Region.applies, and_assoc]

theorem translate_of_no_region {s : State} {acc : Access} {a : Quad}
    (h : ∀ r ∈ s.regions, r.applies acc s.cpl a ≠ true) : s.translate acc a = s.locate acc a := by
  rw [State.translate, List.find?_eq_none.2 h]

/-- What the first region that applies makes of an address. -/
def regionVerdict (s : State) (acc : Access) (a : Quad) (r : Region) : Verdict :=
  match r.answer with
  | .location loc => s.locate acc (loc + (a - BitVec.ofNat 64 r.base))
  | .pageFault code la => .pageFault (s.pfCode acc code) la
  | .gp0 => .gp0
  | .ss0 => .ss0
  | .device => .device

theorem translate_of_first_region {s : State} {acc : Access} {a : Quad} {pre post : List Region} {r : Region}
    (hr : s.regions = pre ++ r :: post) (hpre : ∀ q ∈ pre, q.applies acc s.cpl a ≠ true)
    (happ : r.applies acc s.cpl a = true) : s.translate acc a = regionVerdict s acc a r := by
  have hfind : (s.regions.find? fun r => r.applies acc s.cpl a) = some r := by
    rw [hr, List.find?_append, List.find?_eq_none.2 hpre, List.find?_cons, happ]
    rfl
  rw [State.translate, hfind]
  rfl

theorem locate_of_mapped {s : State} {acc : Access} {loc : Quad} {b : Byte} (h : s.mem.get loc.toNat = some b) :
    s.locate acc loc = .ok b := by
  simp [State.locate, h]

theorem locate_of_unmapped {s : State} {acc : Access} {loc : Quad} (h : s.mem.get loc.toNat = none) :
    s.locate acc loc = .pageFault (s.pfCode acc 0#32) none := by
  simp [State.locate, h]

/-- The bits of a page-fault code that R134 and R147 name: P is the given code's, W/R, U/S and I/D are computed. -/
theorem pfCode_bits (s : State) (acc : Access) (code : BitVec 32) :
    (s.pfCode acc code).getLsbD 0 = code.getLsbD 0 ∧ (s.pfCode acc code).getLsbD 1 = false ∧
      (s.pfCode acc code).getLsbD 2 = decide (s.cpl = 3#2) ∧
      (s.pfCode acc code).getLsbD 4 = decide (acc = .fetch) :=
  ⟨s.pfCode_bit acc code 0, s.pfCode_bit acc code 1, s.pfCode_bit acc code 2, s.pfCode_bit acc code 4⟩

/-- Settles O55: through the first region that applies, and `pfCode_bits` for the bits of a page-fault code. -/
theorem translateAnswers : Obligations.TranslateAnswers := by
  intro s acc a applies byteAt
  have happ : ∀ r : Region, r.applies acc s.cpl a = true ↔ applies r := fun r => by
    simp only [applies, region_applies_iff]
    cases r.levels <;> simp [Levels.has]
  have hbyte : ∀ loc : Quad, byteAt loc (s.locate acc loc) := fun loc =>
    ⟨fun _ h => locate_of_mapped h, fun h =>
      ⟨_, locate_of_unmapped h, pfCode_bits s acc 0#32⟩⟩
  refine ⟨fun hnone => ?_, fun pre r post hr hpre happr => ?_⟩
  · rw [translate_of_no_region fun r hr h => hnone r hr ((happ r).1 h)]
    exact hbyte a
  · rw [translate_of_first_region hr (fun q hq h => hpre q hq ((happ q).1 h)) ((happ r).2 happr), regionVerdict]
    refine ⟨fun loc h => ?_, fun code la h => ?_, fun h => ?_, fun h => ?_, fun h => ?_⟩ <;> rw [h]
    · exact hbyte _
    · exact ⟨_, rfl, pfCode_bits s acc code⟩

/-! ## The read of a memory operand, through `memRead` -/

/-- The read of the memory operand `o` of `i` (spec/20_memory.md R43): only a broadcast is subject to the alignment check
(spec/60_exceptions.md R137). -/
def operandRead (s : State) (i : Instr) (o : List LegacyPrefix × MemRef × Bool) : Except Stop Vec :=
  s.memRead (segmentOf o.1 o.2.1) (operandAddr s i o) (operandBytes i o)
    (o.2.2 && s.mayCheckAlignment (operandAddr s i o))

theorem mem_operandAddrs {s : State} {i : Instr} {o : List LegacyPrefix × MemRef × Bool} {a : Quad} :
    a ∈ addrs (operandAddr s i o) (operandBytes i o) ↔ ∃ k < operandBytes i o, a = byteAddr s i o k :=
  mem_addrs

theorem operandBytes_full (i : Instr) (ps : List LegacyPrefix) (m : MemRef) :
    operandBytes i (ps, m, false) = VecLen.bytes (form i).vl := by
  unfold operandBytes
  cases form i <;> rfl

theorem sourceTable_mem (s : State) (i : Instr) (ps : List LegacyPrefix) (m : MemRef) :
    s.sourceTable (form i) ps i.len (.mem m) = (operandRead s i (ps, m, false)).map id := by
  rw [Except.map_id, id, operandRead, operandBytes_full]
  rfl

theorem sourceTable_bcst (s : State) (i : Instr) (ps : List LegacyPrefix) (m : MemRef) :
    s.sourceTable (form i) ps i.len (.bcst m) =
      (operandRead s i (ps, m, true)).map fun t => broadcast (form i).vl (elem32 t 0) := by
  have hread : operandRead s i (ps, m, true) = s.memRead (segmentOf ps m) (s.linearAddress (form i) ps true i.len m) 4
      (s.mayCheckAlignment (s.linearAddress (form i) ps true i.len m)) := rfl
  rw [State.sourceTable, ← hread]
  cases operandRead s i (ps, m, true) <;> rfl

/-- The memory operand that a table is. -/
def operandOf (ps : List LegacyPrefix) : EvexTable → Option (List LegacyPrefix × MemRef × Bool)
  | .reg _ => none
  | .mem m => some (ps, m, false)
  | .bcst m => some (ps, m, true)

/-- `exec_eq_vpermps` with the form, and with the table tied to the memory operand of the statements. -/
theorem exec_eq_vpermps_operand (i : Instr) : ∃ ps s1 msk tbl, memOperand i = operandOf ps tbl ∧
    ∀ s, exec i s = vpermps (form i) ps (dest i) s1 msk tbl i.len s := by
  cases i with
  | vpermpsVex256 ps d s1 tbl => exact ⟨ps, _, .noWritemask, tbl.widen, by cases tbl <;> rfl, fun _ => rfl⟩
  | vpermpsEvex256 ps d s1 msk tbl => exact ⟨ps, _, msk, tbl, by cases tbl <;> rfl, fun _ => rfl⟩
  | vpermpsEvex512 ps d s1 msk tbl => exact ⟨ps, _, msk, tbl, by cases tbl <;> rfl, fun _ => rfl⟩

/-- The table of an instruction with a memory operand is made from the operand's read, so it has the read's stops. -/
theorem sourceTable_of_operand {i : Instr} {ps : List LegacyPrefix} {tbl : EvexTable}
    {o : List LegacyPrefix × MemRef × Bool} (ho : operandOf ps tbl = some o) :
    ∃ g : Vec → Vec, ∀ s : State, s.sourceTable (form i) ps i.len tbl = (operandRead s i o).map g := by
  cases tbl with
  | reg n => cases ho
  | mem m =>
    cases ho
    exact ⟨id, fun s => sourceTable_mem s i ps m⟩
  | bcst m =>
    cases ho
    exact ⟨_, fun s => sourceTable_bcst s i ps m⟩

/-- A ready form whose table cannot be read stops as the read does. -/
theorem vpermps_of_sourceTable_error {f : Form} {ps : List LegacyPrefix} {d s1 : BitVec 5} {msk : Masking}
    {tbl : EvexTable} {len : Nat} {s : State} {st : Stop} (hready : Ready s f)
    (htable : s.sourceTable f ps len tbl = .error st) : vpermps f ps d s1 msk tbl len s = st.outcome := by
  simp only [vpermps, enablingStop_eq_none.2 hready, htable]

/-- A stop of the read is the outcome of a ready instruction. -/
theorem exec_of_operandRead_error {i : Instr} {s : State} {o : List LegacyPrefix × MemRef × Bool} {st : Stop}
    (hready : Ready s (form i)) (ho : memOperand i = some o) (hread : operandRead s i o = .error st) :
    exec i s = st.outcome := by
  obtain ⟨ps, s1, msk, tbl, hop, hi⟩ := exec_eq_vpermps_operand i
  obtain ⟨g, hg⟩ := sourceTable_of_operand (i := i) (hop ▸ ho)
  rw [hi]
  exact vpermps_of_sourceTable_error hready (by rw [hg, hread, Except.map])

/-! ## The faults of the operand in their order (spec/60_exceptions.md R141) -/

section Operand

variable {s : State} {i : Instr} {o : List LegacyPrefix × MemRef × Bool} {k : Nat}

theorem operandRead_of_nonCanonical (hk : k < operandBytes i o) (hcan : s.canonical (byteAddr s i o k) = false) :
    operandRead s i o = .error (raise (segmentOf o.1 o.2.1).addressFault s) := by
  rcases s.memRead_cases (segmentOf o.1 o.2.1) (operandAddr s i o) (operandBytes i o)
    (o.2.2 && s.mayCheckAlignment (operandAddr s i o)) with ⟨-, hread⟩ | ⟨hall, -⟩
  · exact hread
  · have htrue := hall _ (mem_operandAddrs.2 ⟨k, hk, rfl⟩)
    rw [hcan] at htrue
    cases htrue

theorem operandRead_of_device (hcan : ∀ j < operandBytes i o, s.canonical (byteAddr s i o j) = true)
    (hk : k < operandBytes i o) (hdev : s.translate .read (byteAddr s i o k) = .device) :
    operandRead s i o = .error (.refuse .deviceMemory) := by
  rcases s.memRead_cases (segmentOf o.1 o.2.1) (operandAddr s i o) (operandBytes i o)
    (o.2.2 && s.mayCheckAlignment (operandAddr s i o)) with ⟨⟨a, ha, hfalse⟩, -⟩ | ⟨-, ⟨-, hread⟩ | ⟨hnone, -⟩⟩
  · obtain ⟨j, hj, rfl⟩ := mem_operandAddrs.1 ha
    rw [hcan j hj] at hfalse
    cases hfalse
  · exact hread
  · exact absurd hdev (hnone _ (mem_operandAddrs.2 ⟨k, hk, rfl⟩))

theorem operandRead_of_addressFault
    (hcan : ∀ j < operandBytes i o,
      s.canonical (byteAddr s i o j) = true ∧ s.translate .read (byteAddr s i o j) ≠ .device)
    (hk : k < operandBytes i o)
    (hf : s.translate .read (byteAddr s i o k) = .gp0 ∨ s.translate .read (byteAddr s i o k) = .ss0) :
    ∃ f ∈ s.addressFaults (addrs (operandAddr s i o) (operandBytes i o)), operandRead s i o = .error (raise f s) := by
  rcases s.memRead_cases (segmentOf o.1 o.2.1) (operandAddr s i o) (operandBytes i o)
    (o.2.2 && s.mayCheckAlignment (operandAddr s i o)) with
    ⟨⟨a, ha, hfalse⟩, -⟩ | ⟨-, ⟨⟨a, ha, hdev⟩, -⟩ | ⟨-, hread | ⟨hnone, -⟩⟩⟩
  · obtain ⟨j, hj, rfl⟩ := mem_operandAddrs.1 ha
    rw [(hcan j hj).1] at hfalse
    cases hfalse
  · obtain ⟨j, hj, rfl⟩ := mem_operandAddrs.1 ha
    exact absurd hdev (hcan j hj).2
  · exact hread
  · obtain ⟨hgp, hss⟩ := State.addressFaults_eq_nil.1 hnone _ (mem_operandAddrs.2 ⟨k, hk, rfl⟩)
    exact absurd hf (not_or.2 ⟨hgp, hss⟩)

/-- A ready instruction with a byte that `Translate` answers with #GP(0) or #SS(0) raises one that it answers. -/
theorem exec_of_addressFault (hready : Ready s (form i)) (ho : memOperand i = some o) (hk : k < operandBytes i o)
    (hcan : ∀ j < operandBytes i o,
      s.canonical (byteAddr s i o j) = true ∧ s.translate .read (byteAddr s i o j) ≠ .device)
    (hf : s.translate .read (byteAddr s i o k) = .gp0 ∨ s.translate .read (byteAddr s i o k) = .ss0) :
    (exec i s = .fault (.gp0 s.rip) ∧ ∃ j < operandBytes i o, s.translate .read (byteAddr s i o j) = .gp0) ∨
      (exec i s = .fault (.ss0 s.rip) ∧ ∃ j < operandBytes i o, s.translate .read (byteAddr s i o j) = .ss0) := by
  obtain ⟨f, hmem, hread⟩ := operandRead_of_addressFault hcan hk hf
  have hexec := exec_of_operandRead_error hready ho hread
  rcases State.mem_addressFaults hmem with ⟨rfl, a, ha, htr⟩ | ⟨rfl, a, ha, htr⟩ <;>
    obtain ⟨j, hj, rfl⟩ := mem_operandAddrs.1 ha
  · exact .inl ⟨hexec, j, hj, htr⟩
  · exact .inr ⟨hexec, j, hj, htr⟩

end Operand

theorem addressFault_of_ss {seg : Segment} (h : seg = .ss) (r : Quad) : seg.addressFault r = .ss0 r := by
  rw [h, Segment.addressFault]

theorem addressFault_of_ne_ss {seg : Segment} (h : seg ≠ .ss) (r : Quad) : seg.addressFault r = .gp0 r := by
  cases seg with
  | ss => exact absurd rfl h
  | fs | gs | ds => rfl

/-- Settles O53: the canonical check is the first thing the read does. -/
theorem nonCanonicalOperandFaults : Obligations.NonCanonicalOperandFaults := by
  intro i s o k hready ho hk hcan
  have hexec : exec i s = .fault ((segmentOf o.1 o.2.1).addressFault s.rip) :=
    exec_of_operandRead_error hready ho (operandRead_of_nonCanonical hk hcan)
  rw [hexec]
  exact ⟨fun h => congrArg _ (addressFault_of_ss h _), fun h => congrArg _ (addressFault_of_ne_ss h _)⟩

/-- Settles O57: with canonical bytes, device memory is asked for next. -/
theorem deviceOperandIsRefused : Obligations.DeviceOperandIsRefused :=
  fun _ _ _ _ hready ho hk hcan hdev => exec_of_operandRead_error hready ho (operandRead_of_device hcan hk hdev)

/-- Settles O56: the fault raised is one that `Translate` answers, so it is the one where only one is answered. -/
theorem translateAddressFaults : Obligations.TranslateAddressFaults := by
  intro i s o k hready ho hk hcan gp ss
  refine ⟨fun ⟨hgp, hnss⟩ => ?_, fun ⟨hss, hngp⟩ => ?_, fun ⟨⟨j, hj, hgp⟩, _⟩ => ?_⟩
  · rcases exec_of_addressFault hready ho hk hcan (.inl hgp) with ⟨h, -⟩ | ⟨-, h⟩
    · exact h
    · exact absurd h hnss
  · rcases exec_of_addressFault hready ho hk hcan (.inr hss) with ⟨-, h⟩ | ⟨h, -⟩
    · exact absurd h hngp
    · exact h
  · exact (exec_of_addressFault hready ho hj hcan (.inl hgp)).imp And.left And.left

/-! ## Another memory (spec/20_memory.md R43) -/

theorem any_translate_congr {s t : State} {as : List Quad}
    (h : ∀ a ∈ as, t.translate .read a = s.translate .read a) (v : Verdict) :
    (as.any fun a => t.translate .read a == v) = as.any fun a => s.translate .read a == v := by
  rw [Bool.eq_iff_iff, List.any_eq_true, List.any_eq_true]
  exact exists_congr fun a => and_congr_right fun ha => by rw [h a ha]

/-- The read asks memory for nothing but what `Translate` finds in the bytes of the operand. -/
theorem memRead_congr_mem {s : State} {m : Memory} {la : Quad} {n : Nat}
    (h : ∀ a ∈ addrs la n, { s with mem := m }.translate .read a = s.translate .read a) (seg : Segment)
    (mayCheck : Bool) : { s with mem := m }.memRead seg la n mayCheck = s.memRead seg la n mayCheck := by
  have haddr : { s with mem := m }.addressFaults (addrs la n) = s.addressFaults (addrs la n) := by
    simp only [State.addressFaults, any_translate_congr h]
  have hpage : { s with mem := m }.pageFaults (addrs la n) = s.pageFaults (addrs la n) :=
    List.flatMap_congr fun a ha => by rw [h a ha]
  have hbytes : (addrs la n).map { s with mem := m }.byteAt = (addrs la n).map s.byteAt :=
    List.map_congr_left fun a ha => by rw [State.byteAt, h a ha]; rfl
  simp only [State.memRead, any_translate_congr h, haddr, hpage, hbytes]
  rfl

theorem operandRead_congr_mem {s : State} {m : Memory} {i : Instr} {o : List LegacyPrefix × MemRef × Bool}
    (h : ∀ k < operandBytes i o,
      { s with mem := m }.translate .read (byteAddr s i o k) = s.translate .read (byteAddr s i o k)) :
    operandRead { s with mem := m } i o = operandRead s i o :=
  memRead_congr_mem (fun a ha => by
    obtain ⟨k, hk, rfl⟩ := mem_operandAddrs.1 ha
    exact h k hk) _ _

/-- Settles O35: memory enters through the read of the operand alone. -/
theorem readsOnlyTheOperandBytes : Obligations.ReadsOnlyTheOperandBytes := by
  intro i s m h
  refine ⟨?_, fun t ht => ?_⟩
  · obtain ⟨ps, s1, msk, tbl, hop, hi⟩ := exec_eq_vpermps_operand i
    have htable : { s with mem := m }.sourceTable (form i) ps i.len tbl = s.sourceTable (form i) ps i.len tbl := by
      cases ho : operandOf ps tbl with
      | none =>
        cases tbl with
        | reg n => rfl
        | mem a | bcst a => cases ho
      | some o =>
        obtain ⟨g, hg⟩ := sourceTable_of_operand (i := i) ho
        rw [hg, hg, operandRead_congr_mem (h o (hop.trans ho))]
    rw [hi, hi]
    exact vpermps_eq_mapNext rfl htable fun _ => rfl
  · obtain ⟨x, rfl⟩ := exec_next ht
    rfl

/-! ## Another writemask (spec/20_memory.md R44, spec/40_vpermps.md R109) -/

theorem mapNext_eq_fault {g : State → State} {o : Host.Outcome State Fault Refusal} {f : Fault} :
    mapNext g o = .fault f ↔ o = .fault f := by
  cases o <;> simp [mapNext]

theorem exists_mapNext_eq_next {g : State → State} {o : Host.Outcome State Fault Refusal} :
    (∃ t, mapNext g o = .next t) ↔ ∃ t, o = .next t := by
  cases o <;> simp [mapNext]

/-- The writemask enters a VPERMPS behind its checks and its read, so only the next state depends on it. -/
theorem vpermps_masking (f : Form) (ps : List LegacyPrefix) (d s1 : BitVec 5) (m1 m2 : Masking) (tbl : EvexTable)
    (len : Nat) (s : State) :
    ∃ g, vpermps f ps d s1 m1 tbl len s = mapNext g (vpermps f ps d s1 m2 tbl len s) := by
  unfold vpermps
  cases s.enablingStop f with
  | some st => exact ⟨id, (mapNext_stop id st).symm⟩
  | none =>
    cases s.sourceTable f ps len tbl with
    | error st => exact ⟨id, (mapNext_stop id st).symm⟩
    | ok t => exact ⟨fun _ => _, rfl⟩

/-- Settles O59: for both EVEX forms, the outcomes with the two writemasks differ in the next state alone. -/
theorem maskNeverSuppressesFaults : Obligations.MaskNeverSuppressesFaults := by
  intro ps d s1 m1 m2 tbl s
  obtain ⟨g, hg⟩ : ∃ g, exec (.vpermpsEvex256 ps d s1 m1 tbl) s = mapNext g (exec (.vpermpsEvex256 ps d s1 m2 tbl) s) :=
    vpermps_masking .evex256 ps d s1 m1 m2 tbl _ s
  obtain ⟨g', hg'⟩ : ∃ g, exec (.vpermpsEvex512 ps d s1 m1 tbl) s = mapNext g (exec (.vpermpsEvex512 ps d s1 m2 tbl) s) :=
    vpermps_masking .evex512 ps d s1 m1 m2 tbl _ s
  rw [hg, hg']
  exact ⟨fun _ => mapNext_eq_fault, fun _ => mapNext_eq_fault, exists_mapNext_eq_next, exists_mapNext_eq_next⟩

end Sys2Proof.Proofs

/-! PROOFS. The statements about encodings: what the decoder reads, which encodings fault or are refused, the addresses
of memory operands, the assembler, and the intrinsics. -/

namespace Sys2Proof.Proofs

open Sys2Proof.Machine Sys2Proof.Spec

/-- Settles O8: prefixes, escape byte and operand fields are read back as they were written. -/
theorem decodeOfEncode : Obligations.DecodeOfEncode :=
  fun _ rest hi => decode_encode_append hi rest

/-! ## The bytes in front of an escape byte (spec/30_encoding.md R61) -/

/-- Any bytes are bytes of R61 followed by nothing or by another byte. -/
theorem exists_prefixes_append (bs : List Byte) : ∃ pre tail, bs = pre ++ tail ∧ (∀ b ∈ pre, classify b ≠ .other) ∧
    (tail = [] ∨ ∃ e rest, tail = e :: rest ∧ classify e = .other) := by
  induction bs with
  | nil => exact ⟨[], [], rfl, by simp, .inl rfl⟩
  | cons b bs ih =>
    by_cases hb : classify b = .other
    · exact ⟨[], b :: bs, rfl, by simp, .inr ⟨b, bs, rfl, hb⟩⟩
    · obtain ⟨pre, tail, rfl, hpre, htail⟩ := ih
      exact ⟨b :: pre, tail, rfl, List.forall_mem_cons.2 ⟨hb, hpre⟩, htail⟩

theorem accepted_or_illegal {b : Byte} (hb : classify b ≠ .other) :
    (∃ q, classify b = .accepted q) ∨ classify b = .illegal := by
  cases hc : classify b with
  | accepted q => exact .inl ⟨q, rfl⟩
  | illegal => exact .inr rfl
  | other => exact absurd hc hb

section Prefixes

variable {pre : List Byte} (hpre : ∀ b ∈ pre, classify b ≠ .other)

include hpre

theorem scanPrefixes_rest : (scanPrefixes pre).2 = [] := by
  induction pre with
  | nil => rfl
  | cons b pre ih =>
    obtain ⟨hb, hpre⟩ := List.forall_mem_cons.1 hpre
    rcases accepted_or_illegal hb with ⟨q, hc⟩ | hc <;> simp [scanPrefixes, hc, ih hpre]

theorem scanPrefixes_count : (scanPrefixes pre).1.count = pre.length := by
  induction pre with
  | nil => rfl
  | cons b pre ih =>
    obtain ⟨hb, hpre⟩ := List.forall_mem_cons.1 hpre
    rcases accepted_or_illegal hb with ⟨q, hc⟩ | hc <;> simp [scanPrefixes, hc, ih hpre]

theorem scanPrefixes_append_other {e : Byte} (he : classify e = .other) (rest : List Byte) :
    scanPrefixes (pre ++ e :: rest) = ((scanPrefixes pre).1, e :: rest) := by
  induction pre with
  | nil => exact scanPrefixes_other he rest
  | cons b pre ih =>
    obtain ⟨hb, hpre⟩ := List.forall_mem_cons.1 hpre
    rcases accepted_or_illegal hb with ⟨q, hc⟩ | hc <;> simp [scanPrefixes, hc, ih hpre]

theorem scanPrefixes_bad (hbad : ∃ b ∈ pre, classify b = .illegal) : (scanPrefixes pre).1.bad = true := by
  induction pre with
  | nil => simp at hbad
  | cons b pre ih =>
    obtain ⟨hb, hpre⟩ := List.forall_mem_cons.1 hpre
    rcases accepted_or_illegal hb with ⟨q, hc⟩ | hc
    · simpa [scanPrefixes, hc] using ih hpre (by simpa [hc] using hbad)
    · simp [scanPrefixes, hc]

/-- Without an illegal byte among them all are accepted. -/
theorem scanPrefixes_accepted_length (hgood : (scanPrefixes pre).1.bad = false) :
    (scanPrefixes pre).1.accepted.length = pre.length := by
  induction pre with
  | nil => rfl
  | cons b pre ih =>
    obtain ⟨hb, hpre⟩ := List.forall_mem_cons.1 hpre
    rcases accepted_or_illegal hb with ⟨q, hc⟩ | hc
    · simpa [scanPrefixes, hc] using ih hpre (by simpa [scanPrefixes, hc] using hgood)
    · simp [scanPrefixes, hc] at hgood

theorem decode_prefixes_vex (rest : List Byte) :
    decode (pre ++ 0xC4#8 :: rest) = decodeVex (scanPrefixes pre).1 rest := by
  simp [decode, scanPrefixes_append_other hpre classify_escape.1]

theorem decode_prefixes_evex (rest : List Byte) :
    decode (pre ++ 0x62#8 :: rest) = decodeEvex (scanPrefixes pre).1 rest := by
  simp [decode, scanPrefixes_append_other hpre classify_escape.2]

theorem decode_prefixes_other {e : Byte} (he : classify e = .other) (hvex : e ≠ 0xC4#8) (hevex : e ≠ 0x62#8)
    (rest : List Byte) : decode (pre ++ e :: rest) = .reject .notVpermps := by
  simp [decode, scanPrefixes_append_other hpre he, hvex, hevex]

theorem decode_prefixes_nil : decode pre = .reject .unfinished := by
  simp [decode, scanPrefixes_rest hpre]

end Prefixes

/-- An instruction is read behind the bytes of R61 and one of the two escape bytes. -/
theorem decode_instr {bs : List Byte} {i : Instr} (h : decode bs = .instr i) :
    ∃ pre rest, (∀ b ∈ pre, classify b ≠ .other) ∧
      (bs = pre ++ 0xC4#8 :: rest ∧ decodeVex (scanPrefixes pre).1 rest = .instr i ∨
        bs = pre ++ 0x62#8 :: rest ∧ decodeEvex (scanPrefixes pre).1 rest = .instr i) := by
  obtain ⟨pre, tail, rfl, hpre, rfl | ⟨e, rest, rfl, he⟩⟩ := exists_prefixes_append bs
  · rw [List.append_nil, decode_prefixes_nil hpre] at h
    cases h
  refine ⟨pre, rest, hpre, ?_⟩
  by_cases hvex : e = 0xC4#8
  · subst hvex
    exact .inl ⟨rfl, (decode_prefixes_vex hpre rest).symm.trans h⟩
  by_cases hevex : e = 0x62#8
  · subst hevex
    exact .inr ⟨rfl, (decode_prefixes_evex hpre rest).symm.trans h⟩
  rw [decode_prefixes_other hpre he hvex hevex] at h
  cases h

/-! ## What the two decoders answer (spec/30_encoding.md R97) -/

theorem decodeVex_other_instruction {p : Prefixes} {b1 b2 op : Byte}
    (h : field b1 0 5 ≠ 0b00010#5 ∨ field b2 0 2 ≠ 0b01#2 ∨ op ≠ 0x16#8) (rest : List Byte) :
    decodeVex p (b1 :: b2 :: op :: rest) = .reject .notVpermps := if_pos h

theorem decodeEvex_other_instruction {p : Prefixes} {p0 p1 p2 op : Byte}
    (h : field p0 0 2 ≠ 0b10#2 ∨ field p1 0 2 ≠ 0b01#2 ∨ op ≠ 0x16#8 ∨ bitOf p1 7 = true) (rest : List Byte) :
    decodeEvex p (p0 :: p1 :: p2 :: op :: rest) = .reject .notVpermps := if_pos h

section Vex

variable {p : Prefixes} {b1 b2 : Byte} {rest : List Byte} {reg : BitVec 3} {rm : RmOperand}
  (hmap : field b1 0 5 = 0b00010#5) (hpp : field b2 0 2 = 0b01#2)
  (hrm : readModRM (!bitOf b1 6) (!bitOf b1 5) rest = some (reg, rm))

include hmap hpp hrm

/-- R61, R86, R87: an illegal byte in front, L = 0 or W = 1. -/
theorem decodeVex_illegal (hbad : p.bad = true ∨ bitOf b2 2 = false ∨ bitOf b2 7 = true) :
    decodeVex p (b1 :: b2 :: 0x16#8 :: rest) = settleIllegal (p.count + 5 + rm.len) := by
  have hb : (p.bad || !bitOf b2 2 || bitOf b2 7) = true := by simpa [or_assoc] using hbad
  simp [decodeVex, hmap, hpp, hrm, hb]

theorem decodeVex_legal (hgood : p.bad = false) (hl : bitOf b2 2 = true) (hw : bitOf b2 7 = false) :
    decodeVex p (b1 :: b2 :: 0x16#8 :: rest) =
      settle (.vpermpsVex256 p.accepted (extend (!bitOf b1 7) reg) (~~~field b2 3 4) (vexTable (!bitOf b1 5) rm)) := by
  simp [decodeVex, hmap, hpp, hrm, hgood, hl, hw]

end Vex

section Evex

variable {p : Prefixes} {p0 p1 p2 : Byte} {rest : List Byte} {reg : BitVec 3} {rm : RmOperand}
  (hmap : field p0 0 2 = 0b10#2) (hpp : field p1 0 2 = 0b01#2) (hw : bitOf p1 7 = false)
  (hrm : readModRM (!bitOf p0 6) (!bitOf p0 5) rest = some (reg, rm))

include hmap hpp hw hrm

/-- R61, R88 to R91: an illegal byte in front or a reserved field. -/
theorem decodeEvex_illegal
    (hbad : p.bad = true ∨ field p0 2 2 ≠ 0#2 ∨ bitOf p1 2 = false ∨ (field p2 5 2 ≠ 1#2 ∧ field p2 5 2 ≠ 2#2) ∨
      maskingOf (bitOf p2 7) (field p2 0 3) = none ∨
      evexTable (!bitOf p0 6) (!bitOf p0 5) (bitOf p2 4) rm = none) :
    decodeEvex p (p0 :: p1 :: p2 :: 0x16#8 :: rest) = settleIllegal (p.count + 6 + rm.len) := by
  simp only [decodeEvex, hmap, hpp, hw, hrm, ne_eq, not_true_eq_false, or_self, if_false, Bool.false_eq_true]
  split
  · rename_i hgood hmsk htbl
    simp only [hmsk, Bool.or_eq_false_iff] at hgood
    simp_all
  · rfl

theorem decodeEvex_legal {msk : Masking} {tbl : EvexTable} (hgood : p.bad = false) (hp0 : field p0 2 2 = 0#2)
    (hp1 : bitOf p1 2 = true) (hll : field p2 5 2 = 1#2 ∨ field p2 5 2 = 2#2)
    (hmsk : maskingOf (bitOf p2 7) (field p2 0 3) = some msk)
    (htbl : evexTable (!bitOf p0 6) (!bitOf p0 5) (bitOf p2 4) rm = some tbl) :
    ∃ d s1, decodeEvex p (p0 :: p1 :: p2 :: 0x16#8 :: rest) =
      settle (if field p2 5 2 = 1#2 then .vpermpsEvex256 p.accepted d s1 msk tbl
        else .vpermpsEvex512 p.accepted d s1 msk tbl) := by
  refine ⟨extend (!bitOf p0 4) (extend (!bitOf p0 7) reg), extend (!bitOf p2 3) (~~~field p1 3 4), ?_⟩
  rcases hll with hll | hll <;> simp [decodeEvex, hmap, hpp, hw, hrm, hgood, hp0, hp1, hll, hmsk, htbl]

end Evex

theorem settle_eq_instr {j i : Instr} : settle j = .instr i ↔ j = i ∧ j.len ≤ maxLen := by
  by_cases hlen : j.len ≤ maxLen <;> simp [settle, hlen]

theorem settleIllegal_ne_instr (n : Nat) (i : Instr) : settleIllegal n ≠ .instr i := by simp [settleIllegal]

theorem decodeVex_instr {p : Prefixes} {bs : List Byte} {i : Instr} (h : decodeVex p bs = .instr i) :
    ∃ b1 b2 op rest reg rm d s1, bs = b1 :: b2 :: op :: rest ∧ p.bad = false ∧
      readModRM (!bitOf b1 6) (!bitOf b1 5) rest = some (reg, rm) ∧
      settle (.vpermpsVex256 p.accepted d s1 (vexTable (!bitOf b1 5) rm)) = .instr i := by
  unfold decodeVex at h
  split at h
  case h_2 => cases h
  case h_1 b1 b2 op rest =>
    split at h
    · cases h
    dsimp only at h
    split at h
    · cases h
    rename_i reg rm hrm
    split at h
    · exact absurd h (settleIllegal_ne_instr _ _)
    rename_i hgood
    simp only [Bool.or_eq_true, not_or, Bool.not_eq_true] at hgood
    obtain ⟨⟨hp, -⟩, -⟩ := hgood
    exact ⟨b1, b2, op, rest, reg, rm, _, _, rfl, hp, hrm, h⟩

theorem decodeEvex_instr {p : Prefixes} {bs : List Byte} {i : Instr} (h : decodeEvex p bs = .instr i) :
    ∃ p0 p1 p2 op rest reg rm d s1 msk tbl, bs = p0 :: p1 :: p2 :: op :: rest ∧ p.bad = false ∧
      readModRM (!bitOf p0 6) (!bitOf p0 5) rest = some (reg, rm) ∧
      evexTable (!bitOf p0 6) (!bitOf p0 5) (bitOf p2 4) rm = some tbl ∧
      (settle (.vpermpsEvex256 p.accepted d s1 msk tbl) = .instr i ∨
        settle (.vpermpsEvex512 p.accepted d s1 msk tbl) = .instr i) := by
  unfold decodeEvex at h
  split at h
  case h_2 => cases h
  case h_1 p0 p1 p2 op rest =>
    split at h
    · cases h
    dsimp only at h
    split at h
    · cases h
    rename_i reg rm hrm
    split at h
    case h_2 => exact absurd h (settleIllegal_ne_instr _ _)
    case h_1 msk tbl hgood _ htbl =>
      simp only [Bool.or_eq_false_iff] at hgood
      obtain ⟨⟨⟨⟨hp, -⟩, -⟩, -⟩, -⟩ := hgood
      split at h
      · exact ⟨p0, p1, p2, op, rest, reg, rm, _, _, _, tbl, rfl, hp, hrm, htbl, .inl h⟩
      · exact ⟨p0, p1, p2, op, rest, reg, rm, _, _, _, tbl, rfl, hp, hrm, htbl, .inr h⟩

/-- The VEX decoder sees `X~`, `B~` and the bytes from ModRM on through operand 3 alone. -/
theorem decodeVex_congr {b1 b1' : Byte} {rest rest' : List Byte} (hmap : field b1' 0 5 = field b1 0 5)
    (hreg : bitOf b1' 7 = bitOf b1 7)
    (hread : readModRM (!bitOf b1' 6) (!bitOf b1' 5) rest' = readModRM (!bitOf b1 6) (!bitOf b1 5) rest)
    (htbl : ∀ reg rm, readModRM (!bitOf b1 6) (!bitOf b1 5) rest = some (reg, rm) →
      vexTable (!bitOf b1' 5) rm = vexTable (!bitOf b1 5) rm) (p : Prefixes) (b2 op : Byte) :
    decodeVex p (b1' :: b2 :: op :: rest') = decodeVex p (b1 :: b2 :: op :: rest) := by
  simp only [decodeVex, hmap, hreg, hread]
  cases hrm : readModRM (!bitOf b1 6) (!bitOf b1 5) rest with
  | none => rfl
  | some r => simp only [htbl r.1 r.2 hrm]

/-- The EVEX decoder sees `X~`, `B~` and the bytes from ModRM on through operand 3 alone. -/
theorem decodeEvex_congr {p0 p0' : Byte} {rest rest' : List Byte} (hmap : field p0' 0 2 = field p0 0 2)
    (hres : field p0' 2 2 = field p0 2 2) (hreg : bitOf p0' 7 = bitOf p0 7) (hreg' : bitOf p0' 4 = bitOf p0 4)
    (hread : readModRM (!bitOf p0' 6) (!bitOf p0' 5) rest' = readModRM (!bitOf p0 6) (!bitOf p0 5) rest)
    (htbl : ∀ bc reg rm, readModRM (!bitOf p0 6) (!bitOf p0 5) rest = some (reg, rm) →
      evexTable (!bitOf p0' 6) (!bitOf p0' 5) bc rm = evexTable (!bitOf p0 6) (!bitOf p0 5) bc rm)
    (p : Prefixes) (p1 p2 op : Byte) :
    decodeEvex p (p0' :: p1 :: p2 :: op :: rest') = decodeEvex p (p0 :: p1 :: p2 :: op :: rest) := by
  simp only [decodeEvex, hmap, hres, hreg, hreg', hread]
  cases hrm : readModRM (!bitOf p0 6) (!bitOf p0 5) rest with
  | none => rfl
  | some r => simp only [htbl _ r.1 r.2 hrm]

/-! ## Operand 3, from ModRM on (spec/30_encoding.md R70, R74, R81) -/

/-- `MemRef.wf` of an operand that may be a register. -/
def RmOperand.wf : RmOperand → Bool
  | .reg _ => true
  | .mem m => m.wf

theorem vexTable_wf (b : Bool) (rm : RmOperand) : (vexTable b rm).wf = RmOperand.wf rm := by cases rm <;> rfl

theorem vexTable_len (b : Bool) (rm : RmOperand) : (vexTable b rm).len = rm.len := by cases rm <;> rfl

theorem evexTable_wf_len {x b bc : Bool} {rm : RmOperand} {tbl : EvexTable} (h : evexTable x b bc rm = some tbl) :
    tbl.wf = RmOperand.wf rm ∧ tbl.len = rm.len := by
  cases rm <;> cases bc <;> cases h <;> exact ⟨rfl, rfl⟩

/-- The decoder reads a header (up to the opcode byte) and operand 3, which is as long and as
encodable as the instruction says; what follows matters through operand 3 alone. -/
theorem decode_instr_operand {bs : List Byte} {i : Instr} (h : decode bs = .instr i) :
    ∃ head rest x b reg rm, bs = head ++ rest ∧ readModRM x b rest = some (reg, rm) ∧
      i.encodable = RmOperand.wf rm ∧ i.len = head.length + (1 + rm.len) ∧ i.len ≤ maxLen ∧
      ∀ rest', readModRM x b rest' = some (reg, rm) → decode (head ++ rest') = .instr i := by
  obtain ⟨pre, tail, hpre, ⟨rfl, hd⟩ | ⟨rfl, hd⟩⟩ := decode_instr h
  · obtain ⟨b1, b2, op, rest, reg, rm, d, s1, rfl, hgood, hrm, hset⟩ := decodeVex_instr hd
    obtain ⟨rfl, hmax⟩ := settle_eq_instr.1 hset
    refine ⟨pre ++ [0xC4#8, b1, b2, op], rest, _, _, reg, rm, by simp, hrm, vexTable_wf _ rm, ?_, hmax,
      fun rest' h' => ?_⟩
    · simp [Instr.len, vexTable_len, scanPrefixes_accepted_length hpre hgood]
      omega
    · rw [List.append_assoc]
      exact (decode_prefixes_vex hpre _).trans
        ((decodeVex_congr rfl rfl (h'.trans hrm.symm) (fun _ _ _ => rfl) _ b2 op).trans hd)
  · obtain ⟨p0, p1, p2, op, rest, reg, rm, d, s1, msk, tbl, rfl, hgood, hrm, htbl, hset⟩ := decodeEvex_instr hd
    obtain ⟨hwf, hlen⟩ := evexTable_wf_len htbl
    have hfacts : i.encodable = tbl.wf ∧ i.len = pre.length + 6 + tbl.len ∧ i.len ≤ maxLen := by
      rw [← scanPrefixes_accepted_length hpre hgood]
      rcases hset with hset | hset <;> obtain ⟨rfl, hmax⟩ := settle_eq_instr.1 hset <;> exact ⟨rfl, rfl, hmax⟩
    obtain ⟨henc, hilen, hmax⟩ := hfacts
    refine ⟨pre ++ [0x62#8, p0, p1, p2, op], rest, _, _, reg, rm, by simp, hrm, henc.trans hwf, ?_, hmax,
      fun rest' h' => ?_⟩
    · simp [hilen, hlen]
      omega
    · rw [List.append_assoc]
      exact (decode_prefixes_evex hpre _).trans
        ((decodeEvex_congr rfl rfl rfl rfl (h'.trans hrm.symm) (fun _ _ _ _ => rfl) _ p1 p2 op).trans hd)

theorem readDisp_cases {mod : BitVec 2} {bs : List Byte} {disp : Disp} (h : readDisp mod bs = some disp) :
    (mod = 0#2 ∧ disp = .none) ∨ (mod = 1#2 ∧ ∃ b rest, bs = b :: rest ∧ disp = .disp8 b) ∨
      mod ≠ 0#2 ∧ mod ≠ 1#2 ∧ ∃ v, readDisp32 bs = some v ∧ disp = .disp32 v := by
  unfold readDisp at h
  split at h
  · rename_i h0
    cases h
    exact .inl ⟨h0, rfl⟩
  rename_i h0
  split at h
  · rename_i h1
    cases bs with
    | nil => cases h
    | cons b rest =>
      cases h
      exact .inr (.inl ⟨h1, b, rest, rfl, rfl⟩)
  · rename_i h1
    obtain ⟨v, hv, rfl⟩ := Option.map_eq_some_iff.1 h
    exact .inr (.inr ⟨h0, h1, v, hv, rfl⟩)

section ReadMem

variable (x b : Bool) {mod : BitVec 2} {rm : BitVec 3}

theorem readMem_ripRel (bs : List Byte) : readMem x b 0#2 5#3 bs = (readDisp32 bs).map .ripRel := by simp [readMem]

theorem readMem_base (h4 : rm ≠ 4#3) (h5 : ¬ (mod = 0#2 ∧ rm = 5#3)) (bs : List Byte) :
    readMem x b mod rm bs = (readDisp mod bs).map (.base (extend b rm)) := by simp [readMem, h4, h5]

theorem readMem_sibNoBase {sib : Byte} (hs : field sib 0 3 = 5#3) (bs : List Byte) :
    readMem x b 0#2 4#3 (sib :: bs) = (readDisp32 bs).map (.sibNoBase (extend x (field sib 3 3)) (field sib 6 2)) := by
  simp [readMem, hs]

theorem readMem_sib {sib : Byte} (hs : ¬ (mod = 0#2 ∧ field sib 0 3 = 5#3)) (bs : List Byte) :
    readMem x b mod 4#3 (sib :: bs) =
      (readDisp mod bs).map (.sib (extend b (field sib 0 3)) (extend x (field sib 3 3)) (field sib 6 2)) := by
  simp [readMem, hs]

end ReadMem

/-- The four shapes of R74, each with what was read for it. -/
theorem readMem_cases {x b : Bool} {mod : BitVec 2} {rm : BitVec 3} {bs : List Byte} {m : MemRef}
    (h : readMem x b mod rm bs = some m) :
    (∃ v, mod = 0#2 ∧ rm = 5#3 ∧ readDisp32 bs = some v ∧ m = .ripRel v) ∨
      (∃ disp, rm ≠ 4#3 ∧ ¬ (mod = 0#2 ∧ rm = 5#3) ∧ readDisp mod bs = some disp ∧ m = .base (extend b rm) disp) ∨
      (∃ sib rest v, bs = sib :: rest ∧ rm = 4#3 ∧ mod = 0#2 ∧ field sib 0 3 = 5#3 ∧ readDisp32 rest = some v ∧
        m = .sibNoBase (extend x (field sib 3 3)) (field sib 6 2) v) ∨
      ∃ sib rest disp, bs = sib :: rest ∧ rm = 4#3 ∧ ¬ (mod = 0#2 ∧ field sib 0 3 = 5#3) ∧
        readDisp mod rest = some disp ∧
        m = .sib (extend b (field sib 0 3)) (extend x (field sib 3 3)) (field sib 6 2) disp := by
  by_cases h4 : rm = 4#3
  · subst h4
    cases bs with
    | nil => cases h
    | cons sib rest =>
      by_cases hs : mod = 0#2 ∧ field sib 0 3 = 5#3
      · obtain ⟨rfl, hbase⟩ := hs
        rw [readMem_sibNoBase x b hbase] at h
        obtain ⟨v, hv, rfl⟩ := Option.map_eq_some_iff.1 h
        exact .inr (.inr (.inl ⟨sib, rest, v, rfl, rfl, rfl, hbase, hv, rfl⟩))
      · rw [readMem_sib x b hs] at h
        obtain ⟨disp, hdisp, rfl⟩ := Option.map_eq_some_iff.1 h
        exact .inr (.inr (.inr ⟨sib, rest, disp, rfl, rfl, hs, hdisp, rfl⟩))
  · by_cases h5 : mod = 0#2 ∧ rm = 5#3
    · obtain ⟨rfl, rfl⟩ := h5
      rw [readMem_ripRel] at h
      obtain ⟨v, hv, rfl⟩ := Option.map_eq_some_iff.1 h
      exact .inl ⟨v, rfl, rfl, hv, rfl⟩
    · rw [readMem_base x b h4 h5] at h
      obtain ⟨disp, hdisp, rfl⟩ := Option.map_eq_some_iff.1 h
      exact .inr (.inl ⟨disp, h4, h5, hdisp, rfl⟩)

theorem readModRM_cases {x b : Bool} {bs : List Byte} {reg : BitVec 3} {rm : RmOperand}
    (h : readModRM x b bs = some (reg, rm)) : ∃ modrm rest, bs = modrm :: rest ∧ reg = field modrm 3 3 ∧
      ((field modrm 6 2 = 3#2 ∧ rm = .reg (field modrm 0 3)) ∨
        field modrm 6 2 ≠ 3#2 ∧ ∃ m, readMem x b (field modrm 6 2) (field modrm 0 3) rest = some m ∧ rm = .mem m) := by
  cases bs with
  | nil => cases h
  | cons modrm rest =>
    unfold readModRM at h
    dsimp only at h
    split at h
    · rename_i hmod
      cases h
      exact ⟨modrm, rest, rfl, rfl, .inl ⟨hmod, rfl⟩⟩
    · rename_i hmod
      obtain ⟨m, hm, heq⟩ := Option.map_eq_some_iff.1 h
      cases heq
      exact ⟨modrm, rest, rfl, rfl, .inr ⟨hmod, m, hm, rfl⟩⟩

theorem readModRM_of_mod_three (x b : Bool) {modrm : Byte} (h : field modrm 6 2 = 3#2) (bs : List Byte) :
    readModRM x b (modrm :: bs) = some (field modrm 3 3, .reg (field modrm 0 3)) := by simp [readModRM, h]

theorem readModRM_of_mod_ne_three (x b : Bool) {modrm : Byte} (h : field modrm 6 2 ≠ 3#2) (bs : List Byte) :
    readModRM x b (modrm :: bs) =
      (readMem x b (field modrm 6 2) (field modrm 0 3) bs).map fun m => (field modrm 3 3, .mem m) := by
  simp [readModRM, h]

/-! ### The operand read is encodable -/

theorem low3_extend : ∀ (x : Bool) (v : BitVec 3), GReg.low3 (extend x v) = v := by decide

theorem readDisp_none_iff {mod : BitVec 2} {bs : List Byte} {disp : Disp} (h : readDisp mod bs = some disp) :
    disp = .none ↔ mod = 0#2 := by
  rcases readDisp_cases h with ⟨rfl, rfl⟩ | ⟨rfl, _, _, -, rfl⟩ | ⟨h0, -, _, -, rfl⟩
  · simp
  · simp
  · simp [h0]

theorem readMem_wf {x b : Bool} {mod : BitVec 2} {rm : BitVec 3} {bs : List Byte} {m : MemRef}
    (h : readMem x b mod rm bs = some m) : m.wf = true := by
  rcases readMem_cases h with ⟨v, -, -, -, rfl⟩ | ⟨disp, h4, h5, hdisp, rfl⟩ | ⟨sib, rest, v, -, -, -, -, -, rfl⟩ |
    ⟨sib, rest, disp, -, -, h5, hdisp, rfl⟩
  · rfl
  · simp only [MemRef.wf, low3_extend, Bool.and_eq_true, Bool.or_eq_true, bne_iff_ne, ne_eq, readDisp_none_iff hdisp]
    exact ⟨h4, not_and_or.1 h5⟩
  · rfl
  · simp only [MemRef.wf, low3_extend, Bool.or_eq_true, bne_iff_ne, ne_eq, readDisp_none_iff hdisp]
    exact not_and_or.1 h5

theorem readModRM_wf {x b : Bool} {bs : List Byte} {reg : BitVec 3} {rm : RmOperand}
    (h : readModRM x b bs = some (reg, rm)) : RmOperand.wf rm = true := by
  obtain ⟨_, _, -, -, ⟨-, rfl⟩ | ⟨-, m, hm, rfl⟩⟩ := readModRM_cases h
  · rfl
  · exact readMem_wf hm

/-- Settles O9: operand 3 is encodable as it was read, and `settle` has checked the length. -/
theorem decodedInstructionsAreWellFormed : Obligations.DecodedInstructionsAreWellFormed := by
  intro bs i h
  obtain ⟨head, rest, x, b, reg, rm, -, hrm, henc, -, hmax, -⟩ := decode_instr_operand h
  exact wf_iff.2 ⟨henc.trans (readModRM_wf hrm), hmax⟩

/-! ### The operand is read from its own bytes -/

/-- The first `n` bytes of `bs` are enough for `read` to answer `a`. -/
def ReadsFirst {α : Type} (read : List Byte → α) (a : α) (n : Nat) (bs : List Byte) : Prop :=
  n ≤ bs.length ∧ ∀ rest, read (bs.take n ++ rest) = a

theorem ReadsFirst.append {α : Type} {read : List Byte → α} {a : α} {n : Nat} {bs : List Byte} (head : List Byte)
    (h : ReadsFirst (fun bs => read (head ++ bs)) a n bs) : ReadsFirst read a (head.length + n) (head ++ bs) := by
  obtain ⟨hle, hread⟩ := h
  refine ⟨by simpa using hle, fun rest => ?_⟩
  rw [List.take_length_add_append, List.append_assoc]
  exact hread rest

theorem ReadsFirst.map {α β : Type} {read : List Byte → Option α} {a : α} {n : Nat} {bs : List Byte} (g : α → β)
    (h : ReadsFirst read (some a) n bs) : ReadsFirst (fun bs => (read bs).map g) (some (g a)) n bs :=
  ⟨h.1, fun rest => congrArg (Option.map g) (h.2 rest)⟩

theorem readsFirst_readDisp32 {bs : List Byte} {v : BitVec 32} (h : readDisp32 bs = some v) :
    ReadsFirst readDisp32 (some v) 4 bs := by
  unfold readDisp32 at h
  split at h
  · exact ⟨by simp, fun rest => h⟩
  · cases h

theorem readsFirst_readDisp {mod : BitVec 2} {bs : List Byte} {disp : Disp} (h : readDisp mod bs = some disp) :
    ReadsFirst (readDisp mod) (some disp) disp.len bs := by
  rcases readDisp_cases h with ⟨rfl, rfl⟩ | ⟨rfl, b, rest, rfl, rfl⟩ | ⟨h0, h1, v, hv, rfl⟩
  · exact ⟨Nat.zero_le _, fun _ => rfl⟩
  · exact ⟨by simp [Disp.len], fun _ => rfl⟩
  · have heq : readDisp mod = fun bs => (readDisp32 bs).map .disp32 := funext fun _ => by simp [readDisp, h0, h1]
    rw [heq]
    exact (readsFirst_readDisp32 hv).map _

theorem readsFirst_readMem {x b : Bool} {mod : BitVec 2} {rm : BitVec 3} {bs : List Byte} {m : MemRef}
    (h : readMem x b mod rm bs = some m) : ReadsFirst (readMem x b mod rm) (some m) m.len bs := by
  rcases readMem_cases h with ⟨v, rfl, rfl, hv, rfl⟩ | ⟨disp, h4, h5, hdisp, rfl⟩ |
    ⟨sib, rest, v, rfl, rfl, rfl, hs, hv, rfl⟩ | ⟨sib, rest, disp, rfl, rfl, hs, hdisp, rfl⟩
  · rw [funext (readMem_ripRel x b)]
    exact (readsFirst_readDisp32 hv).map _
  · rw [funext (readMem_base x b h4 h5)]
    exact (readsFirst_readDisp hdisp).map _
  · refine ReadsFirst.append (n := 4) [sib] ?_
    simp only [List.singleton_append, readMem_sibNoBase x b hs]
    exact (readsFirst_readDisp32 hv).map _
  · refine ReadsFirst.append [sib] ?_
    simp only [List.singleton_append, readMem_sib x b hs]
    exact (readsFirst_readDisp hdisp).map _

theorem readsFirst_readModRM {x b : Bool} {bs : List Byte} {reg : BitVec 3} {rm : RmOperand}
    (h : readModRM x b bs = some (reg, rm)) : ReadsFirst (readModRM x b) (some (reg, rm)) (1 + rm.len) bs := by
  obtain ⟨modrm, rest, rfl, rfl, ⟨hmod, rfl⟩ | ⟨hmod, m, hm, rfl⟩⟩ := readModRM_cases h <;>
    refine ReadsFirst.append [modrm] ?_
  · exact ⟨Nat.zero_le _, fun _ => readModRM_of_mod_three x b hmod _⟩
  · simp only [List.singleton_append, readModRM_of_mod_ne_three x b hmod]
    exact (readsFirst_readMem hm).map _

/-- Settles O10: the header is kept, and operand 3 is read from its own bytes. -/
theorem decodeReadsOnlyTheInstruction : Obligations.DecodeReadsOnlyTheInstruction := by
  intro bs i h
  obtain ⟨head, rest, x, b, reg, rm, rfl, hrm, -, hlen, -, hdec⟩ := decode_instr_operand h
  obtain ⟨hle, hread⟩ := readsFirst_readModRM hrm
  rw [hlen]
  exact ReadsFirst.append head ⟨hle, fun rest' => hdec _ (hread rest')⟩


/-! ## An encoding behind any bytes of R61 -/

theorem classify_ne_other_of_mem_map {ps : List LegacyPrefix} :
    ∀ b ∈ ps.map LegacyPrefix.byte, classify b ≠ .other := by simp

theorem scanPrefixes_legacy (ps : List LegacyPrefix) :
    (scanPrefixes (ps.map LegacyPrefix.byte)).1 = ⟨ps, ps.length, false⟩ := by
  simpa [scanPrefixes] using congrArg Prod.fst (scanPrefixes_map ps [])

section

variable {pre : List Byte} (hpre : ∀ b ∈ pre, classify b ≠ .other)

include hpre

theorem decode_prefixes_encodeVex (d s1 : BitVec 4) {tbl : VexTable} (htbl : tbl.wf = true) (rest : List Byte) :
    decode (pre ++ encodeVex d s1 tbl.fields ++ rest) =
      if (scanPrefixes pre).1.bad then settleIllegal (pre.length + 5 + tbl.len)
      else settle (.vpermpsVex256 (scanPrefixes pre).1.accepted d s1 tbl) := by
  rw [List.append_assoc]
  refine (decode_prefixes_vex hpre _).trans ((decodeVex_encodeVex _ d s1 tbl htbl rest).trans ?_)
  rw [scanPrefixes_count hpre]

theorem decode_prefixes_encodeEvex {ll : BitVec 2} (hll : ll = 1#2 ∨ ll = 2#2) (d s1 : BitVec 5) (msk : Masking)
    {tbl : EvexTable} (htbl : tbl.wf = true) (rest : List Byte) :
    decode (pre ++ encodeEvex ll d s1 msk tbl ++ rest) =
      if (scanPrefixes pre).1.bad then settleIllegal (pre.length + 6 + tbl.len)
      else settle (if ll = 1#2 then .vpermpsEvex256 (scanPrefixes pre).1.accepted d s1 msk tbl
        else .vpermpsEvex512 (scanPrefixes pre).1.accepted d s1 msk tbl) := by
  rw [List.append_assoc]
  refine (decode_prefixes_evex hpre _).trans ((decodeEvex_encodeEvex _ ll hll d s1 msk tbl htbl rest).trans ?_)
  rw [scanPrefixes_count hpre]

end

/-- An illegal byte in front makes the encoding of an encodable instruction illegal (R61). -/
theorem decode_illegal_encode {pre : List Byte} (hpre : ∀ b ∈ pre, classify b ≠ .other)
    (hbad : ∃ b ∈ pre, classify b = .illegal) {i : Instr} (hi : i.encodable = true) (rest : List Byte) :
    decode (pre ++ encode i ++ rest) = settleIllegal (pre.length + i.len) := by
  have hpre' (ps : List LegacyPrefix) : ∀ b ∈ pre ++ ps.map LegacyPrefix.byte, classify b ≠ .other := fun b hb =>
    (List.mem_append.1 hb).elim (hpre b) (classify_ne_other_of_mem_map b)
  have hbad' (ps : List LegacyPrefix) : (scanPrefixes (pre ++ ps.map LegacyPrefix.byte)).1.bad = true :=
    scanPrefixes_bad (hpre' ps) (hbad.imp fun b hb => ⟨List.mem_append_left _ hb.1, hb.2⟩)
  cases i with
  | vpermpsVex256 ps d s1 tbl =>
    rw [encode, ← List.append_assoc, decode_prefixes_encodeVex (hpre' ps) d s1 hi, if_pos (hbad' ps)]
    simp [Instr.len, Nat.add_assoc]
  | vpermpsEvex256 ps d s1 msk tbl =>
    rw [encode, ← List.append_assoc, decode_prefixes_encodeEvex (hpre' ps) (.inl rfl) d s1 msk hi, if_pos (hbad' ps)]
    simp [Instr.len, Nat.add_assoc]
  | vpermpsEvex512 ps d s1 msk tbl =>
    rw [encode, ← List.append_assoc, decode_prefixes_encodeEvex (hpre' ps) (.inr rfl) d s1 msk hi, if_pos (hbad' ps)]
    simp [Instr.len, Nat.add_assoc]

/-- The encoding of an encodable instruction is read back, up to the limit on its length (R83). -/
theorem decode_encode_settle {i : Instr} (hi : i.encodable = true) (rest : List Byte) :
    decode (encode i ++ rest) = settle i := by
  cases i with
  | vpermpsVex256 ps d s1 tbl =>
    rw [encode, decode_prefixes_encodeVex classify_ne_other_of_mem_map d s1 hi, scanPrefixes_legacy]
    rfl
  | vpermpsEvex256 ps d s1 msk tbl =>
    rw [encode, decode_prefixes_encodeEvex classify_ne_other_of_mem_map (.inl rfl) d s1 msk hi, scanPrefixes_legacy]
    rfl
  | vpermpsEvex512 ps d s1 msk tbl =>
    rw [encode, decode_prefixes_encodeEvex classify_ne_other_of_mem_map (.inr rfl) d s1 msk hi, scanPrefixes_legacy]
    rfl

/-! ### Lengths -/

theorem disp_len_le (disp : Disp) : disp.len ≤ 4 := by cases disp <;> simp [Disp.len]

theorem memRef_len_le (m : MemRef) : m.len ≤ 5 := by
  cases m with
  | ripRel v => simp [MemRef.len]
  | base b disp => exact Nat.le_succ_of_le (disp_len_le disp)
  | sib b index scale disp => exact Nat.add_le_add_left (disp_len_le disp) 1
  | sibNoBase index scale v => simp [MemRef.len]

theorem vexTable_len_le (tbl : VexTable) : tbl.len ≤ 5 := by
  cases tbl with
  | reg n => exact Nat.zero_le _
  | mem m => exact memRef_len_le m

theorem evexTable_len_le (tbl : EvexTable) : tbl.len ≤ 5 := by
  cases tbl with
  | reg n => exact Nat.zero_le _
  | mem m | bcst m => exact memRef_len_le m

/-- Settles O11: ModRM is followed by at most an SIB byte and four bytes of displacement. -/
theorem encodedLengthRange : Obligations.EncodedLengthRange := by
  refine ⟨fun d s1 tbl => ?_, fun d s1 msk tbl => ?_, fun d s1 msk tbl => ?_⟩ <;>
    rw [encode_length, Instr.len, List.length_nil]
  · have := vexTable_len_le tbl
    omega
  · have := evexTable_len_le tbl
    omega
  · have := evexTable_len_le tbl
    omega

/-! ## Bits the decoder ignores (spec/93_implementation_defined.md section 1) -/

theorem readModRM_ignores_x {modrm : Byte} (h : field modrm 6 2 = 3#2 ∨ field modrm 0 3 ≠ 4#3) (x x' b : Bool)
    (bs : List Byte) : readModRM x' b (modrm :: bs) = readModRM x b (modrm :: bs) := by
  by_cases hmod : field modrm 6 2 = 3#2
  · rw [readModRM_of_mod_three x' b hmod, readModRM_of_mod_three x b hmod]
  · rw [readModRM_of_mod_ne_three x' b hmod, readModRM_of_mod_ne_three x b hmod]
    simp only [readMem, h.resolve_left hmod, if_false]

/-- Without a base register, RIP-relative or by the SIB byte, `B` has nothing to extend. -/
theorem readModRM_ignores_b {modrm : Byte} {bs : List Byte} (hmod : field modrm 6 2 = 0#2)
    (h : field modrm 0 3 = 5#3 ∨ field modrm 0 3 = 4#3 ∧ ∃ sib rest, bs = sib :: rest ∧ field sib 0 3 = 5#3)
    (x b b' : Bool) : readModRM x b' (modrm :: bs) = readModRM x b (modrm :: bs) := by
  have h3 : field modrm 6 2 ≠ 3#2 := by simp [hmod]
  rw [readModRM_of_mod_ne_three x b' h3, readModRM_of_mod_ne_three x b h3, hmod]
  rcases h with hrm | ⟨hrm, sib, rest, rfl, hs⟩ <;> rw [hrm]
  · rw [readMem_ripRel, readMem_ripRel]
  · rw [readMem_sibNoBase x b' hs, readMem_sibNoBase x b hs]

theorem readModRM_isMem {x b : Bool} {modrm : Byte} {bs : List Byte} (hmod : field modrm 6 2 ≠ 3#2) {reg : BitVec 3}
    {rm : RmOperand} (h : readModRM x b (modrm :: bs) = some (reg, rm)) : ∃ m, rm = .mem m := by
  rw [readModRM_of_mod_ne_three x b hmod] at h
  obtain ⟨m, -, heq⟩ := Option.map_eq_some_iff.1 h
  cases heq
  exact ⟨m, rfl⟩

/-- What flipping `X~` leaves alone. -/
theorem flip_x_fields : ∀ p : Byte, field (p ^^^ 0x40#8) 0 5 = field p 0 5 ∧ field (p ^^^ 0x40#8) 0 2 = field p 0 2 ∧
    field (p ^^^ 0x40#8) 2 2 = field p 2 2 ∧ bitOf (p ^^^ 0x40#8) 7 = bitOf p 7 ∧ bitOf (p ^^^ 0x40#8) 5 = bitOf p 5 ∧
    bitOf (p ^^^ 0x40#8) 4 = bitOf p 4 := by decide

/-- What flipping `B~` leaves alone. -/
theorem flip_b_fields : ∀ p : Byte, field (p ^^^ 0x20#8) 0 5 = field p 0 5 ∧ field (p ^^^ 0x20#8) 0 2 = field p 0 2 ∧
    field (p ^^^ 0x20#8) 2 2 = field p 2 2 ∧ bitOf (p ^^^ 0x20#8) 7 = bitOf p 7 ∧ bitOf (p ^^^ 0x20#8) 6 = bitOf p 6 ∧
    bitOf (p ^^^ 0x20#8) 4 = bitOf p 4 := by decide

theorem decodeVex_flip_x {modrm : Byte} (h : field modrm 6 2 = 3#2 ∨ field modrm 0 3 ≠ 4#3) (p : Prefixes)
    (b1 b2 op : Byte) (bs : List Byte) :
    decodeVex p ((b1 ^^^ 0x40#8) :: b2 :: op :: modrm :: bs) = decodeVex p (b1 :: b2 :: op :: modrm :: bs) := by
  obtain ⟨hmap, -, -, hreg, hb, -⟩ := flip_x_fields b1
  refine decodeVex_congr hmap hreg ?_ (fun _ _ _ => ?_) p b2 op
  · rw [hb, readModRM_ignores_x h]
  · rw [hb]

theorem decodeEvex_flip_x {modrm : Byte} (hmod : field modrm 6 2 ≠ 3#2) (hrm : field modrm 0 3 ≠ 4#3) (p : Prefixes)
    (p0 p1 p2 op : Byte) (bs : List Byte) :
    decodeEvex p ((p0 ^^^ 0x40#8) :: p1 :: p2 :: op :: modrm :: bs) =
      decodeEvex p (p0 :: p1 :: p2 :: op :: modrm :: bs) := by
  obtain ⟨-, hmap, hres, hreg, hb, hreg'⟩ := flip_x_fields p0
  refine decodeEvex_congr hmap hres hreg hreg' ?_ (fun bc _ _ h => ?_) p p1 p2 op
  · rw [hb, readModRM_ignores_x (.inr hrm)]
  · obtain ⟨m, rfl⟩ := readModRM_isMem hmod h
    rfl

section

variable {modrm : Byte} {bs : List Byte} (hmod : field modrm 6 2 = 0#2)
  (h : field modrm 0 3 = 5#3 ∨ field modrm 0 3 = 4#3 ∧ ∃ sib rest, bs = sib :: rest ∧ field sib 0 3 = 5#3)

include hmod h

theorem decodeVex_flip_b (p : Prefixes) (b1 b2 op : Byte) :
    decodeVex p ((b1 ^^^ 0x20#8) :: b2 :: op :: modrm :: bs) = decodeVex p (b1 :: b2 :: op :: modrm :: bs) := by
  obtain ⟨hmap, -, -, hreg, hx, -⟩ := flip_b_fields b1
  refine decodeVex_congr hmap hreg ?_ (fun _ _ hrm => ?_) p b2 op
  · rw [hx, readModRM_ignores_b hmod h]
  · obtain ⟨m, rfl⟩ := readModRM_isMem (by simp [hmod]) hrm
    rfl

theorem decodeEvex_flip_b (p : Prefixes) (p0 p1 p2 op : Byte) :
    decodeEvex p ((p0 ^^^ 0x20#8) :: p1 :: p2 :: op :: modrm :: bs) =
      decodeEvex p (p0 :: p1 :: p2 :: op :: modrm :: bs) := by
  obtain ⟨-, hmap, hres, hreg, hx, hreg'⟩ := flip_b_fields p0
  refine decodeEvex_congr hmap hres hreg hreg' ?_ (fun bc _ _ hrm => ?_) p p1 p2 op
  · rw [hx, readModRM_ignores_b hmod h]
  · obtain ⟨m, rfl⟩ := readModRM_isMem (by simp [hmod]) hrm
    rfl

end

/-- Settles O14: the flipped bit extends nothing in the operand that is read. -/
theorem ignoredExtensionBits : Obligations.IgnoredExtensionBits := by
  intro pre b1 b2 p0 p1 p2 modrm sib rest hpre vex evex
  simp only [vex, evex, decode_prefixes_vex hpre, decode_prefixes_evex hpre]
  exact ⟨fun h => decodeVex_flip_x h _ b1 b2 _ rest, fun ⟨h0, h5⟩ => decodeVex_flip_b h0 (.inl h5) _ b1 b2 _,
    fun ⟨h0, h4, h5⟩ => decodeVex_flip_b h0 (.inr ⟨h4, sib, rest, rfl, h5⟩) _ b1 b2 _,
    fun ⟨h3, h4⟩ => decodeEvex_flip_x h3 h4 _ p0 p1 p2 _ rest,
    fun ⟨h0, h5⟩ => decodeEvex_flip_b h0 (.inl h5) _ p0 p1 p2 _,
    fun ⟨h0, h4, h5⟩ => decodeEvex_flip_b h0 (.inr ⟨h4, sib, rest, rfl, h5⟩) _ p0 p1 p2 _⟩

/-! ## Words of the opcode table (spec/30_encoding.md R64, R68, R69) -/

/-- The match bits of a word, byte by byte. -/
theorem ofNat_shiftRight_and {w mask val : Nat} (h : w &&& mask = val) (n : Nat) :
    BitVec.ofNat 8 (w >>> n) &&& BitVec.ofNat 8 (mask >>> n) = BitVec.ofNat 8 (val >>> n) := by
  rw [← BitVec.ofNat_and, ← Nat.shiftRight_and_distrib, h]

/-- A byte that the mask holds whole. -/
theorem ofNat_shiftRight_eq {w mask val : Nat} (h : w &&& mask = val) {n : Nat}
    (hmask : BitVec.ofNat 8 (mask >>> n) = 0xFF#8) : BitVec.ofNat 8 (w >>> n) = BitVec.ofNat 8 (val >>> n) := by
  rw [← ofNat_shiftRight_and h n, hmask]
  exact BitVec.and_allOnes.symm

theorem vexByte1_match : ∀ b : Byte, b &&& 0x1F#8 = 0x02#8 → field b 0 5 = 0b00010#5 := by decide

theorem vexByte2_match : ∀ b : Byte, b &&& 0x87#8 = 0x05#8 →
    field b 0 2 = 0b01#2 ∧ bitOf b 2 = true ∧ bitOf b 7 = false := by decide

theorem evexByte0_match : ∀ b : Byte, b &&& 0x0F#8 = 0x02#8 → field b 0 2 = 0b10#2 ∧ field b 2 2 = 0#2 := by decide

theorem evexByte2_match : ∀ (b : Byte) (ll : BitVec 2), b &&& 0x60#8 = ll.setWidth 8 <<< 5 → field b 5 2 = ll := by
  decide

theorem maskingOf_eq_none : ∀ (z : Bool) (aaa : BitVec 3), maskingOf z aaa = none ↔ z = true ∧ aaa = 0#3 := by decide

theorem tableBytes_of_low {w : Nat} (h : BitVec.ofNat 8 w = 0x16#8) (nbits : Nat) :
    tableBytes nbits w = bytesHighFirst (nbits / 8) w ++ List.replicate (maxLen - nbits / 8) 0#8 := by
  simp [tableBytes, h]

/-- The zero byte behind a table word is a ModRM byte: a memory operand without a displacement. -/
theorem readModRM_zero (x b : Bool) (bs : List Byte) :
    readModRM x b (0#8 :: bs) = some (0#3, .mem (.base (extend b 0#3) .none)) := rfl

theorem decode_vexRow {b1 b2 : Byte} (h1 : b1 &&& 0x1F#8 = 0x02#8) (h2 : b2 &&& 0x87#8 = 0x05#8) (bs : List Byte) :
    ∃ d s1 tbl, decode (0xC4#8 :: b1 :: b2 :: 0x16#8 :: 0#8 :: bs) = .instr (.vpermpsVex256 [] d s1 tbl) := by
  obtain ⟨hpp, hl, hw⟩ := vexByte2_match b2 h2
  exact ⟨_, _, _, (decode_prefixes_vex (pre := []) (by simp) _).trans
    (decodeVex_legal (vexByte1_match b1 h1) hpp (readModRM_zero _ _ bs) rfl hl hw)⟩

theorem decode_evexRow {p0 p1 p2 : Byte} {ll : BitVec 2} (h0 : p0 &&& 0x0F#8 = 0x02#8) (h1 : p1 &&& 0x87#8 = 0x05#8)
    (hp2 : field p2 5 2 = ll) (hll : ll = 1#2 ∨ ll = 2#2) (bs : List Byte) :
    let row := decode (0x62#8 :: p0 :: p1 :: p2 :: 0x16#8 :: 0#8 :: bs)
    (bitOf p2 7 = true ∧ field p2 0 3 = 0#3 → row = .reject .illegal) ∧
      (¬ (bitOf p2 7 = true ∧ field p2 0 3 = 0#3) → ∃ d s1 msk tbl,
        row = .instr (if ll = 1#2 then .vpermpsEvex256 [] d s1 msk tbl else .vpermpsEvex512 [] d s1 msk tbl)) := by
  obtain ⟨hmap, hres⟩ := evexByte0_match p0 h0
  obtain ⟨hpp, hp1, hw⟩ := vexByte2_match p1 h1
  have hrm := readModRM_zero (!bitOf p0 6) (!bitOf p0 5) bs
  have hrow := decode_prefixes_evex (pre := []) (by simp) (p0 :: p1 :: p2 :: 0x16#8 :: 0#8 :: bs)
  refine ⟨fun hz => ?_, fun hz => ?_⟩
  · have hmsk := (maskingOf_eq_none _ _).2 hz
    exact hrow.trans (decodeEvex_illegal hmap hpp hw hrm (by simp [hmsk]))
  · rw [← maskingOf_eq_none, ← ne_eq, Option.ne_none_iff_exists'] at hz
    obtain ⟨msk, hmsk⟩ := hz
    obtain ⟨tbl, htbl, hlen⟩ : ∃ tbl, evexTable (!bitOf p0 6) (!bitOf p0 5) (bitOf p2 4)
        (.mem (.base (extend (!bitOf p0 5) 0#3) .none)) = some tbl ∧ tbl.len = 0 := by
      cases bitOf p2 4 <;> exact ⟨_, rfl, rfl⟩
    obtain ⟨d, s1, hdec⟩ :=
      decodeEvex_legal (p := (scanPrefixes []).1) hmap hpp hw hrm rfl hres hp1 (hp2 ▸ hll) hmsk htbl
    refine ⟨d, s1, msk, tbl, hrow.trans (hdec.trans ?_)⟩
    rcases hll with rfl | rfl <;> rw [hp2] <;> exact if_pos (by simp [Instr.len, hlen, maxLen, scanPrefixes])

theorem decodeTableWord_of_instr {nbits w : Nat} {i : Instr} (h : decode (tableBytes nbits w) = .instr i) :
    decodeTableWord nbits w = some i := by
  simp only [decodeTableWord, h]

theorem bitOf_ofNat_shiftRight (w : Nat) : bitOf (BitVec.ofNat 8 (w >>> 8)) 7 = w.testBit 15 := by
  rw [bitOf, BitVec.getLsbD_ofNat, Nat.testBit_shiftRight]
  rfl

theorem field_ofNat_eq_zero (n : Nat) : field (BitVec.ofNat 8 n) 0 3 = 0#3 ↔ n % 8 = 0 := by
  rw [← BitVec.toNat_inj]
  simp [field]

/-- R68: the match bits of an EVEX row, whose bits 14:13 are L'L. -/
theorem decodeTableWord_evexRow {w : Nat} {ll : BitVec 2} (hll : ll = 1#2 ∨ ll = 2#2)
    (h : w &&& 0xFF0F8760FF = 0x6202050016 + ll.toNat * 0x2000) :
    (w.testBit 15 = true ∧ w >>> 8 % 8 = 0 → decodeTableWord 40 w = none) ∧
      (w.testBit 15 = false ∨ w >>> 8 % 8 ≠ 0 → ∃ i, decodeTableWord 40 w = some i ∧
        form i = if ll = 1#2 then .evex256 else .evex512) := by
  have hesc : BitVec.ofNat 8 (w >>> 32) = 0x62#8 := by
    rcases hll with rfl | rfl <;> exact ofNat_shiftRight_eq h rfl
  have h0 : BitVec.ofNat 8 (w >>> 24) &&& 0x0F#8 = 0x02#8 := by
    rcases hll with rfl | rfl <;> exact ofNat_shiftRight_and h 24
  have h1 : BitVec.ofNat 8 (w >>> 16) &&& 0x87#8 = 0x05#8 := by
    rcases hll with rfl | rfl <;> exact ofNat_shiftRight_and h 16
  have h2 : BitVec.ofNat 8 (w >>> 8) &&& 0x60#8 = ll.setWidth 8 <<< 5 := by
    rcases hll with rfl | rfl <;> exact ofNat_shiftRight_and h 8
  have hop : BitVec.ofNat 8 w = 0x16#8 := by
    rcases hll with rfl | rfl <;> exact ofNat_shiftRight_eq (n := 0) h rfl
  have hbytes : tableBytes 40 w = 0x62#8 :: BitVec.ofNat 8 (w >>> 24) :: BitVec.ofNat 8 (w >>> 16) ::
      BitVec.ofNat 8 (w >>> 8) :: 0x16#8 :: 0#8 :: List.replicate 9 0#8 := by
    rw [tableBytes_of_low hop, ← hesc, ← hop]
    rfl
  obtain ⟨hbad, hgood⟩ := decode_evexRow h0 h1 (evexByte2_match _ ll h2) hll (List.replicate 9 0#8)
  rw [bitOf_ofNat_shiftRight, field_ofNat_eq_zero, ← hbytes] at hbad hgood
  refine ⟨fun hz => ?_, fun hz => ?_⟩
  · simp only [decodeTableWord, hbad hz]
  · obtain ⟨d, s1, msk, tbl, hdec⟩ := hgood (by simpa [imp_iff_not_or] using hz)
    refine ⟨_, decodeTableWord_of_instr hdec, ?_⟩
    split <;> rfl

/-- R64: the match bits of the VEX row. -/
theorem decodeTableWord_vexRow {w : Nat} (h : w &&& 0xFF1F87FF = 0xC4020516) :
    ∃ i, decodeTableWord 32 w = some i ∧ form i = .vex256 := by
  have hop : BitVec.ofNat 8 w = 0x16#8 := ofNat_shiftRight_eq (n := 0) h rfl
  have hesc : BitVec.ofNat 8 (w >>> 24) = 0xC4#8 := ofNat_shiftRight_eq h rfl
  have hbytes : tableBytes 32 w = 0xC4#8 :: BitVec.ofNat 8 (w >>> 16) :: BitVec.ofNat 8 (w >>> 8) :: 0x16#8 :: 0#8 ::
      List.replicate 10 0#8 := by
    rw [tableBytes_of_low hop, ← hesc, ← hop]
    rfl
  obtain ⟨d, s1, tbl, hdec⟩ :=
    decode_vexRow (ofNat_shiftRight_and h 16) (ofNat_shiftRight_and h 8) (List.replicate 10 0#8)
  exact ⟨_, decodeTableWord_of_instr (hbytes ▸ hdec), rfl⟩

/-- Settles O13: the match bits fix every field the decoder checks but `z` and `aaa`. -/
theorem tableRowsDecodeToTheirForm : Obligations.TableRowsDecodeToTheirForm := fun _ =>
  ⟨decodeTableWord_vexRow, decodeTableWord_evexRow (ll := 1#2) (.inl rfl),
    decodeTableWord_evexRow (ll := 2#2) (.inr rfl)⟩

/-! ## Encodings that fault or are refused (spec/60_exceptions.md R131, R141) -/

theorem udOrGp0_outcome (s : State) :
    s.udOrGp0.outcome = .fault (.ud s.rip) ∨ s.udOrGp0.outcome = .fault (.gp0 s.rip) :=
  (pickFrom_two (Config.decodeChoice s.freeIx) (raise .ud s) (raise .gp0 s)).imp (congrArg Stop.outcome)
    (congrArg Stop.outcome)

/-- An illegal encoding of `n` bytes: #UD, beyond 15 bytes #UD or #GP(0) (90_conflicts.md C7). -/
theorem step_illegal {s : State} {n : Nat} (hm : s.mode ≠ .prot32) (h : decode s.fetchBytes = settleIllegal n) :
    (n ≤ 15 → step s = .fault (.ud s.rip)) ∧
      (15 < n → step s = .fault (.ud s.rip) ∨ step s = .fault (.gp0 s.rip)) := by
  rw [step_reject hm h]
  refine ⟨fun hn => ?_, fun hn => ?_⟩
  · rw [if_pos (show n ≤ maxLen from hn)]
    rfl
  · rw [if_neg (show ¬ n ≤ maxLen from Nat.not_le.2 hn)]
    exact udOrGp0_outcome s

/-- Settles O17: VEX.L = 0 makes the encoding illegal. -/
theorem vexL0IsUd : Obligations.VexL0IsUd := by
  intro s pre b1 b2 rest reg rm hm hfetch hpre hrm hmap hpp hw hl
  refine step_illegal hm ?_
  rw [hfetch, decode_prefixes_vex hpre, decodeVex_illegal hmap hpp hrm (.inr (.inl hl)), scanPrefixes_count hpre]

/-- Settles O18: each of the reserved values makes the encoding illegal. -/
theorem reservedFieldsAreUd : Obligations.ReservedFieldsAreUd := by
  refine ⟨fun s pre b1 b2 rest reg rm hm hfetch hpre hrm hmap hpp hw => step_illegal hm ?_,
    fun s pre p0 p1 p2 modrm rest reg rm hm hfetch hpre hrm hmap hpp hw hbad => step_illegal hm ?_⟩
  · rw [hfetch, decode_prefixes_vex hpre, decodeVex_illegal hmap hpp hrm (.inr (.inr hw)), scanPrefixes_count hpre]
  · rw [hfetch, decode_prefixes_evex hpre, decodeEvex_illegal hmap hpp hw hrm ?_, scanPrefixes_count hpre]
    rcases hbad with h | h | ⟨hb, hmod⟩ | hz | h | h
    · simp [h]
    · simp [h]
    · rw [readModRM_of_mod_three _ _ hmod] at hrm
      cases hrm
      simp [evexTable, hb]
    · simp [(maskingOf_eq_none _ _).2 hz]
    · simp [h]
    · simp [h]

/-- The bytes of R61 that are #UD in front of an encoding. -/
theorem classify_illegal : ∀ b : Byte,
    b = 0x66#8 ∨ b = 0xF2#8 ∨ b = 0xF3#8 ∨ b = 0xF0#8 ∨ (0x40#8 ≤ b ∧ b ≤ 0x4F#8) → classify b = .illegal := by decide

/-- Settles O19: the encoding behind the byte is read as before, and is illegal. -/
theorem illegalPrefixFaults : Obligations.IllegalPrefixFaults := by
  intro s pre i rest hm hi hfetch hpre ⟨b, hb, hclass⟩
  exact step_illegal hm (hfetch ▸ decode_illegal_encode hpre ⟨b, hb, classify_illegal b hclass⟩ hi rest)

theorem form_eq (i : Instr) : i.form = form i := by cases i <;> rfl

/-- Settles O20: the decoder answers `tooLong` with the form, and the state decides. -/
theorem overlongInstructionIsGp : Obligations.OverlongInstructionIsGp := by
  intro s i rest hm hi hlen hfetch
  have hdec : decode s.fetchBytes = .reject (.tooLong (form i)) := by
    rw [hfetch, decode_encode_settle hi, settle, if_neg (show ¬ i.len ≤ maxLen from Nat.not_le.2 hlen), form_eq]
  rw [step_reject hm hdec, State.decodeStop]
  refine ⟨fun hen => ?_, fun hen => ?_⟩
  · rw [(disabled_eq_false hm).2 hen]
    rfl
  · rw [if_pos (by simpa using mt (disabled_eq_false hm).1 hen)]
    exact udOrGp0_outcome s

/-- Settles O21: the three shapes of bytes that are another instruction. -/
theorem otherInstructionsAreRefused : Obligations.OtherInstructionsAreRefused := by
  intro s pre post hm hfetch hpre hother
  have hdec : decode s.fetchBytes = .reject .notVpermps := by
    rw [hfetch]
    rcases hother with ⟨e, rest, rfl, he, hvex, hevex⟩ | ⟨b1, b2, op, rest, rfl, h⟩ | ⟨p0, p1, p2, op, rest, rfl, h⟩
    · exact decode_prefixes_other hpre he hvex hevex rest
    · exact (decode_prefixes_vex hpre _).trans (decodeVex_other_instruction h rest)
    · exact (decode_prefixes_evex hpre _).trans (decodeEvex_other_instruction h rest)
  rw [step_reject hm hdec]
  rfl

/-- Settles O23: the mode is the first thing a step looks at, and the first enabling check of a form. -/
theorem prot32IsRefused : Obligations.Prot32IsRefused := by
  intro s hm
  refine ⟨if_pos hm, fun i => ?_⟩
  obtain ⟨ps, s1, msk, tbl, -, hi⟩ := exec_eq_vpermps_form i
  have hstop : s.enablingStop (form i) = some (.refuse .prot32Mode) := if_pos hm
  rw [hi, vpermps, hstop]
  rfl

/-! ## Effective and linear addresses (spec/30_encoding.md R74, R75) -/

@[simp] theorem narrow_false (x : Quad) : narrow false x = x := rfl

theorem segmentBase_eq_baseOf (s : State) (seg : Segment) : s.segmentBase seg = baseOf s seg := by cases seg <;> rfl

/-- An address is its effective address and the base of its segment. -/
theorem linearAddress_eq (s : State) (f : Form) (ps : List LegacyPrefix) (bc : Bool) (len : Nat) (m : MemRef) :
    s.linearAddress f ps bc len m =
      s.effectiveAddress (addr32 ps) (f.dispScale bc) (s.rip + BitVec.ofNat 64 len) m + baseOf s (segmentOf ps m) := by
  rw [State.linearAddress, segmentBase_eq_baseOf]

/-- Without segment prefixes the segment is SS exactly for the base registers rsp and rbp (R74). -/
theorem segmentOf_nil (m : MemRef) :
    segmentOf [] m = if m.baseReg = some 4#4 ∨ m.baseReg = some 5#4 then .ss else .ds := rfl

theorem baseOf_segmentOf_nil (s : State) (m : MemRef) : baseOf s (segmentOf [] m) = 0#64 := by
  rw [segmentOf_nil]
  split <;> rfl

/-- The last of the segment prefixes wins (R61). -/
theorem segmentOf_append_segment {p : LegacyPrefix} {seg : Segment} (hp : p.segment = some seg) (ps : List LegacyPrefix)
    (m : MemRef) : segmentOf (ps ++ [p]) m = seg := by
  simp [segmentOf, hp]

theorem segmentOf_append_addr32 (ps : List LegacyPrefix) (m : MemRef) :
    segmentOf (ps ++ [.addr32]) m = segmentOf ps m := by
  simp [segmentOf, LegacyPrefix.segment]

theorem linearAddress_nil (s : State) (f : Form) (bc : Bool) (len : Nat) (m : MemRef) :
    s.linearAddress f [] bc len m =
      s.effectiveAddress false (f.dispScale bc) (s.rip + BitVec.ofNat 64 len) m := by
  rw [linearAddress_eq, baseOf_segmentOf_nil, BitVec.add_zero]
  rfl

theorem indexValue_of_index (s : State) {index : GReg} (h : index ≠ 4#4) (a32 : Bool) (sc : BitVec 2) :
    s.indexValue a32 index sc = narrow a32 (s.readG index) <<< sc.toNat := if_neg h

theorem indexValue_none (s : State) (a32 : Bool) (sc : BitVec 2) : s.indexValue a32 4#4 sc = 0#64 := rfl

/-- Settles O43: the scale and the displacement of the statement are those of the model, and no base is added. -/
theorem linearAddressShapes : Obligations.LinearAddressShapes := by
  intro s f bc len b index sc disp v32 n d
  have hn : n = f.dispScale bc := by cases f <;> cases bc <;> rfl
  have hd : d = disp.value (f.dispScale bc) := by
    rw [← hn]
    cases disp <;> rfl
  rw [hd]
  simp only [linearAddress_nil, State.effectiveAddress, narrow_false, indexValue_none, BitVec.add_zero, BitVec.zero_add,
    true_and, and_true]
  exact ⟨fun h => by rw [indexValue_of_index s h, narrow_false], fun h => by rw [indexValue_of_index s h, narrow_false]⟩

/-- A last byte that names a segment decides the base that is added, and nothing else. -/
theorem linearAddress_append_segment (s : State) {p : LegacyPrefix} {seg : Segment} (hp : p.segment = some seg)
    (f : Form) (ps : List LegacyPrefix) (bc : Bool) (len : Nat) (m : MemRef) :
    s.linearAddress f (ps ++ [p]) bc len m =
      s.effectiveAddress (addr32 ps) (f.dispScale bc) (s.rip + BitVec.ofNat 64 len) m + baseOf s seg := by
  have ha : addr32 (ps ++ [p]) = addr32 ps := by cases p <;> simp_all [addr32, LegacyPrefix.segment]
  rw [linearAddress_eq, ha, segmentOf_append_segment hp]

/-- Settles O44: the last byte that names a segment decides it, and the effective address does not depend on it. -/
theorem segmentSelection : Obligations.SegmentSelection := by
  intro s f bc len ps m
  refine ⟨segmentOf_append_segment rfl ps m, segmentOf_append_segment rfl ps m, segmentOf_append_segment rfl ps m,
    segmentOf_append_segment rfl ps m, segmentOf_append_segment rfl ps m, segmentOf_append_segment rfl ps m,
    segmentOf_append_addr32 ps m, ?_, ?_, ?_⟩
  · rw [segmentOf_nil]
    split <;> simp_all
  · rw [linearAddress_append_segment s rfl, linearAddress_append_segment s rfl]
    simp [baseOf]
  · rw [linearAddress_append_segment s rfl, linearAddress_append_segment s rfl]
    simp [baseOf]

/-! ### The address-size override -/

/-- The low 32 bits. -/
def low32 (x : Quad) : BitVec 32 := x.setWidth 32

@[simp] theorem low32_add (x y : Quad) : low32 (x + y) = low32 x + low32 y := BitVec.setWidth_add _ _ (by decide)

@[simp] theorem low32_shiftLeft (x : Quad) (n : Nat) : low32 (x <<< n) = low32 x <<< n := by
  simp [low32]

@[simp] theorem low32_narrow (a32 : Bool) (x : Quad) : low32 (narrow a32 x) = low32 x := by
  cases a32 with
  | false => rfl
  | true => simp [narrow, low32]

theorem narrow_true (x : Quad) : narrow true x = (low32 x).setWidth 64 := rfl

/-- The low 32 bits of an effective address, under `67` or not, are those of its parts. -/
theorem low32_effectiveAddress {s t : State} (hg : ∀ n, low32 (t.readG n) = low32 (s.readG n)) {next next' : Quad}
    (hnext : low32 next' = low32 next) (a32 a32' : Bool) (n : BitVec 64) (m : MemRef) :
    low32 (t.effectiveAddress a32' n next' m) = low32 (s.effectiveAddress a32 n next m) := by
  have hindex (index : GReg) (sc : BitVec 2) :
      low32 (t.indexValue a32' index sc) = low32 (s.indexValue a32 index sc) := by
    by_cases h : index = 4#4
    · subst h
      rfl
    · rw [indexValue_of_index t h, indexValue_of_index s h]
      simp [hg]
  cases m <;> simp [State.effectiveAddress, hg, hnext, hindex]

theorem effectiveAddress_true (s : State) (n : BitVec 64) (next : Quad) (m : MemRef) :
    s.effectiveAddress true n next m = (low32 (s.effectiveAddress true n next m)).setWidth 64 := by
  simp [State.effectiveAddress, narrow_true, low32]

theorem segmentOf_filter (ps : List LegacyPrefix) (m : MemRef) :
    segmentOf (ps.filter fun p => p != .addr32) m = segmentOf ps m := by
  have h : (ps.filter fun p => p != .addr32).filterMap LegacyPrefix.segment = ps.filterMap LegacyPrefix.segment := by
    rw [List.filterMap_filter]
    exact List.filterMap_congr fun p _ => by cases p <;> rfl
  rw [segmentOf, segmentOf, h]

/-- Settles O45: the effective address is narrowed, and narrowing its parts before changes nothing. -/
theorem addressSizePrefix : Obligations.AddressSizePrefix := by
  intro s t f bc len ps m hps base wide
  have ha : addr32 ps = true := by simpa [addr32] using hps
  have hno : addr32 (ps.filter fun p => p != .addr32) = false := by simp [addr32]
  have hwide : wide = s.effectiveAddress false (f.dispScale bc) (s.rip + BitVec.ofNat 64 len) m := by
    simp only [wide, base]
    rw [linearAddress_eq, segmentOf_filter, hno, BitVec.add_sub_cancel]
  refine ⟨?_, fun hg hrip hfs hgs => ?_⟩
  · rw [linearAddress_eq, ha, effectiveAddress_true, low32_effectiveAddress (fun _ => rfl) rfl false true, hwide]
    rfl
  · have hbase : baseOf t (segmentOf ps m) = baseOf s (segmentOf ps m) := by
      cases segmentOf ps m <;> simp [baseOf, hfs, hgs]
    have hnext : low32 (t.rip + BitVec.ofNat 64 len) = low32 (s.rip + BitVec.ofNat 64 len) := by
      rw [low32_add, low32_add, low32, hrip]
      rfl
    rw [linearAddress_eq, linearAddress_eq, ha, hbase, effectiveAddress_true t, effectiveAddress_true s,
      low32_effectiveAddress hg hnext]

/-! ## The assembler (spec/30_encoding.md R75, R93) -/

theorem dispScale_cases (f : Form) (bc : Bool) :
    f.dispScale bc = 1#64 ∨ f.dispScale bc = 4#64 ∨ f.dispScale bc = 32#64 ∨ f.dispScale bc = 64#64 := by
  cases f <;> cases bc <;> simp [Form.dispScale]

/-- Some 8-bit field has the value `v` under the scale `n`. -/
def FitsDisp8 (n : Nat) (v : BitVec 32) : Prop := v.toInt % n = 0 ∧ -128 ≤ v.toInt / n ∧ v.toInt / n ≤ 127

/-- The scaled 8-bit displacement as an integer: nothing overflows. -/
theorem disp8_value_iff {n : BitVec 64} (hn : n = 1#64 ∨ n = 4#64 ∨ n = 32#64 ∨ n = 64#64) (b : BitVec 8)
    (v : BitVec 32) : b.signExtend 64 * n = v.signExtend 64 ↔ b.toInt * n.toNat = v.toInt := by
  have hb : -128 ≤ b.toInt ∧ b.toInt < 128 := ⟨b.le_toInt, b.toInt_lt⟩
  rw [← BitVec.toInt_inj, BitVec.toInt_mul, BitVec.toInt_signExtend_of_le (by decide),
    BitVec.toInt_signExtend_of_le (by decide)]
  rcases hn with rfl | rfl | rfl | rfl <;> simp [Int.bmod_def] <;> omega

theorem fitsDisp8_of_mul {n : Nat} (hn : 0 < n) {b : BitVec 8} {v : BitVec 32} (h : b.toInt * n = v.toInt) :
    FitsDisp8 n v := by
  rw [FitsDisp8, ← h, Int.mul_emod_left, Int.mul_ediv_cancel _ (by omega)]
  exact ⟨rfl, b.le_toInt, Int.le_of_lt_add_one b.toInt_lt⟩

theorem FitsDisp8.mul {n : Nat} {v : BitVec 32} (h : FitsDisp8 n v) :
    (BitVec.ofInt 8 (v.toInt / n)).toInt * n = v.toInt := by
  obtain ⟨hmod, hlo, hhi⟩ := h
  have hq : (BitVec.ofInt 8 (v.toInt / n)).toInt = v.toInt / n := by
    rw [BitVec.toInt_ofInt]
    exact Int.bmod_eq_of_le (by omega) (by omega)
  rw [hq]
  exact Int.ediv_mul_cancel (Int.dvd_of_emod_eq_zero hmod)

theorem shortest_zero (n : Nat) : Disp.shortest n false 0#32 = .none := by simp [Disp.shortest]

theorem shortest_of_fits {n : Nat} {needed : Bool} {v : BitVec 32} (h0 : ¬ (v = 0#32 ∧ needed = false))
    (h : FitsDisp8 n v) : Disp.shortest n needed v = .disp8 (BitVec.ofInt 8 (v.toInt / n)) :=
  (if_neg (by simpa using h0)).trans (if_pos h)

theorem shortest_of_not_fits {n : Nat} {needed : Bool} {v : BitVec 32} (h : ¬ FitsDisp8 n v) :
    Disp.shortest n needed v = .disp32 v := by
  have h0 : ¬ (v = 0#32 ∧ !needed) := by
    rintro ⟨rfl, -⟩
    exact h (by simp [FitsDisp8])
  exact (if_neg h0).trans (if_neg h)

/-- Settles O47: the test for an 8-bit field is that some field has the value. -/
theorem shortestDisplacement : Obligations.ShortestDisplacement := by
  intro f bc needed v d fits
  have hn := dispScale_cases f bc
  have hpos : 0 < (f.dispScale bc).toNat := by rcases hn with h | h | h | h <;> rw [h] <;> decide
  have hfits : fits ↔ FitsDisp8 (f.dispScale bc).toNat v := by
    simp only [fits, disp8_value_iff hn]
    exact ⟨fun ⟨b, hb⟩ => fitsDisp8_of_mul hpos hb, fun h => ⟨_, h.mul⟩⟩
  by_cases h0 : v = 0#32 ∧ needed = false
  · obtain ⟨rfl, rfl⟩ := h0
    have hd : d = .none := shortest_zero _
    rw [hd]
    exact ⟨rfl, fun _ => rfl, fun h => absurd ⟨rfl, rfl⟩ h, fun h => absurd ⟨0#8, by simp⟩ h⟩
  by_cases h8 : FitsDisp8 (f.dispScale bc).toNat v
  · have hd : d = .disp8 _ := shortest_of_fits h0 h8
    rw [hd]
    exact ⟨(disp8_value_iff hn _ v).2 h8.mul, fun h => absurd h h0, fun _ _ => ⟨_, rfl⟩, fun h => absurd (hfits.2 h8) h⟩
  · have hd : d = .disp32 v := shortest_of_not_fits h8
    rw [hd]
    exact ⟨rfl, fun h => absurd h h0, fun _ h => absurd (hfits.1 h) h8, fun _ => rfl⟩

/-- A field that is needed is not shortened away. -/
theorem shorten_needed {n : Nat} {disp : Disp} (h : disp ≠ .none) : disp.shorten n true ≠ .none := by
  cases disp with
  | none => exact absurd rfl h
  | disp8 v => simp [Disp.shorten]
  | disp32 v =>
    simp only [Disp.shorten, Disp.shortest]
    split
    · simp_all
    · split <;> simp

/-- An encodable operand stays encodable: with base field 101 the displacement stays. -/
theorem memRef_shorten_wf {m : MemRef} (h : m.wf = true) (n : Nat) : (m.shorten n).wf = true := by
  have hdisp (disp : Disp) (b : GReg) (h : disp ≠ .none ∨ b.low3 ≠ 5#3) :
      disp.shorten n (b.low3 == 5#3) ≠ .none ∨ b.low3 ≠ 5#3 := by
    by_cases hb : b.low3 = 5#3
    · have hne := shorten_needed (n := n) (h.resolve_right (not_not.2 hb))
      exact .inl (by simpa [hb] using hne)
    · exact .inr hb
  cases m with
  | ripRel v => rfl
  | base b disp =>
    simp only [MemRef.wf, MemRef.shorten, Bool.and_eq_true, Bool.or_eq_true, bne_iff_ne] at h ⊢
    exact ⟨h.1, hdisp disp b h.2⟩
  | sib b index scale disp =>
    simp only [MemRef.wf, MemRef.shorten, Bool.or_eq_true, bne_iff_ne] at h ⊢
    exact hdisp disp b h
  | sibNoBase index scale v => rfl

theorem evexTable_shorten_wf {tbl : EvexTable} (h : tbl.wf = true) (f : Form) : (tbl.shorten f).wf = true := by
  cases tbl with
  | reg n => rfl
  | mem m | bcst m => exact memRef_shorten_wf h _

theorem narrow_wf {tbl : EvexTable} {t : VexTable} (h : tbl.narrow = some t) : t.wf = tbl.wf := by
  cases tbl with
  | reg n =>
    simp only [EvexTable.narrow, Option.ite_none_right_eq_some] at h
    obtain ⟨-, h⟩ := h
    cases h
    rfl
  | mem m =>
    cases h
    rfl
  | bcst m => cases h

section Assemble

variable {ps : List LegacyPrefix} {d s1 : BitVec 5} {msk : Masking} {tbl : EvexTable}

theorem assemble_vex {t : VexTable} (h : msk = .noWritemask ∧ d.toNat < 16 ∧ s1.toNat < 16)
    (ht : (tbl.shorten .vex256).narrow = some t) :
    assemble .vl256 ps d s1 msk tbl = .vpermpsVex256 ps (d.setWidth 4) (s1.setWidth 4) t := by
  simp only [assemble, ht, h, decide_true, and_self]

theorem assemble_evex256
    (h : msk = .noWritemask ∧ d.toNat < 16 ∧ s1.toNat < 16 → (tbl.shorten .vex256).narrow = none) :
    assemble .vl256 ps d s1 msk tbl = .vpermpsEvex256 ps d s1 msk (tbl.shorten .evex256) := by
  simp only [assemble]
  split
  · rename_i hregs ht
    rw [h (of_decide_eq_true hregs)] at ht
    cases ht
  · rfl

theorem assemble_encodable (vl : VecLen) (h : tbl.wf = true) : (assemble vl ps d s1 msk tbl).encodable = true := by
  cases vl with
  | vl512 => exact evexTable_shorten_wf h .evex512
  | vl256 =>
    simp only [assemble]
    split
    · rename_i t _ ht
      exact (narrow_wf ht).trans (evexTable_shorten_wf h .vex256)
    · exact evexTable_shorten_wf h .evex256

end Assemble

/-- Settles O48: the VEX form is emitted exactly when it can name every operand. -/
theorem assemblerChoosesForm : Obligations.AssemblerChoosesForm := by
  intro vl ps d s1 msk tbl plain
  refine ⟨?_, ?_, ?_, assemble_encodable vl⟩
  · rintro rfl
    rfl
  · rintro rfl ⟨hmsk, hd, hs1, htbl⟩
    obtain ⟨t, ht⟩ : ∃ t, (tbl.shorten .vex256).narrow = some t := by
      cases tbl with
      | reg n => exact ⟨_, if_pos htbl⟩
      | mem m => exact ⟨_, rfl⟩
      | bcst m => exact htbl.elim
    rw [assemble_vex ⟨hmsk, hd, hs1⟩ ht, form]
  · rintro rfl hplain
    have hnone : msk = .noWritemask ∧ d.toNat < 16 ∧ s1.toNat < 16 → (tbl.shorten .vex256).narrow = none := by
      rintro ⟨hmsk, hd, hs1⟩
      cases tbl with
      | reg n => exact if_neg fun hn => hplain ⟨hmsk, hd, hs1, hn⟩
      | mem m => exact absurd ⟨hmsk, hd, hs1, trivial⟩ hplain
      | bcst m => rfl
    rw [assemble_evex256 hnone, form]

/-! ## The intrinsics (spec/30_encoding.md R96) -/

/-- A ready form with a register table completes. -/
theorem vpermps_reg {f : Form} {s : State} (hready : Ready s f) (ps : List LegacyPrefix) (d s1 n : BitVec 5)
    (msk : Masking) (len : Nat) :
    vpermps f ps d s1 msk (.reg n) len s = .next ((s.writeV d (s.result f d s1 msk (s.readV n))).retire len) := by
  simp only [vpermps, enablingStop_eq_none.2 hready, State.sourceTable]

/-- Both EVEX forms need AVX512F, so nothing of the result is cut off. -/
theorem vpermps_reg_readV {f : Form} {s : State} (hready : Ready s f) (hf : f ≠ .vex256) (ps : List LegacyPrefix)
    (d s1 n : BitVec 5) (msk : Masking) (len : Nat) :
    ∃ t, vpermps f ps d s1 msk (.reg n) len s = .next t ∧
      t.readV d = applyMask f.vl (permute f.vl (s.readV s1) (s.readV n)) (s.readV d) msk s.k := by
  refine ⟨_, vpermps_reg hready ps d s1 n msk len, ?_⟩
  have hf512 : s.cfg.hasAvx512f = true := by
    obtain ⟨-, hform, -, -⟩ := hready
    cases f with
    | vex256 => exact absurd rfl hf
    | evex256 => exact (Bool.and_eq_true_iff.1 hform).1
    | evex512 => exact hform
  rw [State.readV_retire, State.readV_writeV_same, State.truncV_of_maxvl hf512]
  rfl

theorem applyMask_permute_noWritemask (vl : VecLen) (idx tbl old : Vec) (k : Vector Opmask 8) :
    applyMask vl (permute vl idx tbl) old .noWritemask k = permute vl idx tbl :=
  ofElems_congr fun _ hj => elem32_permute vl idx tbl hj

theorem applyMask_merging (vl : VecLen) (tmp old : Vec) (r : OpmaskReg) (k : Vector Opmask 8) :
    applyMask vl tmp old (.merging r) k = select vl (k[r.index].setWidth vl.kl).getLsbD tmp old :=
  ofElems_congr fun j hj => by simp [hj]

theorem applyMask_zeroing (vl : VecLen) (tmp old : Vec) (r : OpmaskReg) (k : Vector Opmask 8) :
    applyMask vl tmp old (.zeroing r) k = select vl (k[r.index].setWidth vl.kl).getLsbD tmp 0#512 :=
  ofElems_congr fun j hj => by simp [hj, elem32]

/-- Settles O41: masking is the selection of the intrinsics, element by element. -/
theorem intrinsics512 : Obligations.Intrinsics512 := by
  intro d s1 n r s hready k
  have hexec (msk : Masking) := vpermps_reg_readV hready (by decide) [] d s1 n msk 6
  refine ⟨?_, ?_, ?_⟩
  · obtain ⟨t, ht, hd⟩ := hexec .noWritemask
    exact ⟨t, ht, hd.trans (applyMask_permute_noWritemask _ _ _ _ _)⟩
  · obtain ⟨t, ht, hd⟩ := hexec (.merging r)
    exact ⟨t, ht, hd.trans (applyMask_merging _ _ _ r _)⟩
  · obtain ⟨t, ht, hd⟩ := hexec (.zeroing r)
    exact ⟨t, ht, hd.trans (applyMask_zeroing _ _ _ r _)⟩

/-- The eight elements of the low 256 bits. -/
theorem elem32_low256 (x : Vec) {j : Nat} (hj : j < VecLen.kl .vl256) :
    elem32 ((x.setWidth 256).setWidth 512) j = elem32 x j := by
  refine BitVec.eq_of_getLsbD_eq fun i hi => ?_
  simp only [VecLen.kl] at hj
  simp [getLsbD_elem32, show 32 * j + i < 256 by omega, show 32 * j + i < 512 by omega]

theorem select_congr {vl : VecLen} {x x' y y' : Vec} (hx : ∀ j < vl.kl, elem32 x' j = elem32 x j)
    (hy : ∀ j < vl.kl, elem32 y' j = elem32 y j) (k : Nat → Bool) : select vl k x' y' = select vl k x y :=
  ofElems_congr fun j hj => by rw [hx j hj, hy j hj]

theorem permute_congr {vl : VecLen} {idx idx' tbl tbl' : Vec} (hidx : ∀ j < vl.kl, elem32 idx' j = elem32 idx j)
    (htbl : ∀ j < vl.kl, elem32 tbl' j = elem32 tbl j) : permute vl idx' tbl' = permute vl idx tbl :=
  ofElems_congr fun j hj => by
    rw [indexOf_eq_mod, hidx j hj, ← indexOf_eq_mod]
    exact htbl _ (indexOf_lt vl idx j)

theorem mm256_permutexvar_low (idx tbl : Vec) :
    mm256_permutexvar_ps (idx.setWidth 256) (tbl.setWidth 256) = (permute .vl256 idx tbl).setWidth 256 := by
  rw [mm256_permutexvar_ps, permute_congr (fun _ => elem32_low256 idx) (fun _ => elem32_low256 tbl)]

/-- Settles O42: as for 512 bits, on the low 256 bits. -/
theorem intrinsics256 : Obligations.Intrinsics256 := by
  intro d s1 n r s hready k y
  have hexec (msk : Masking) := vpermps_reg_readV hready (by decide) [] d s1 n msk 6
  simp only [y, mm256_mask_permutexvar_ps, mm256_maskz_permutexvar_ps, mm256_permutexvar_low]
  refine ⟨?_, ?_, ?_⟩
  · obtain ⟨t, ht, hd⟩ := hexec .noWritemask
    exact ⟨t, ht, congrArg _ (hd.trans (applyMask_permute_noWritemask _ _ _ _ _))⟩
  · obtain ⟨t, ht, hd⟩ := hexec (.merging r)
    refine ⟨t, ht, congrArg _ (hd.trans ((applyMask_merging _ _ _ r _).trans ?_))⟩
    exact (select_congr (fun _ => elem32_low256 _) (fun _ => elem32_low256 _) _).symm
  · obtain ⟨t, ht, hd⟩ := hexec (.zeroing r)
    refine ⟨t, ht, congrArg _ (hd.trans ((applyMask_zeroing _ _ _ r _).trans ?_))⟩
    exact (select_congr (fun _ => elem32_low256 _) (fun _ _ => rfl) _).symm

end Sys2Proof.Proofs

/-! PROOFS. The statements about VPERMPS itself: the permutation and its masking, and the three forms that complete. -/

namespace Sys2Proof.Proofs

open Sys2Proof.Machine Sys2Proof.Spec

/-! ## Vectors by their elements -/

/-- Element `j` as the spec cuts it out: a shift and a truncation. -/
theorem elem32_eq_shift (x : Vec) (j : Nat) : elem32 x j = (x >>> (j * 32)).setWidth 32 := by
  refine BitVec.eq_of_toNat_eq ?_
  rw [elem32, BitVec.extractLsb'_toNat, BitVec.toNat_setWidth, BitVec.toNat_ushiftRight, Nat.mul_comm]

theorem ofElems_zero (n : Nat) : ofElems (fun _ => 0#32) n = 0#512 := by
  induction n with
  | zero => rfl
  | succ n ih => simp [ofElems, ih]

/-- The first `n` elements of a vector are its low bits. -/
theorem getLsbD_ofElems_elem32 (x : Vec) {n : Nat} (hn : n ≤ 16) (i : Nat) :
    (ofElems (elem32 x) n).getLsbD i = (decide (i < 32 * n) && x.getLsbD i) := by
  rw [getLsbD_ofElems _ n hn, getLsbD_elem32, Nat.div_add_mod, decide_eq_true (Nat.mod_lt i (by decide)), Bool.true_and]

theorem ofElems_elem32_eq_and (x : Vec) (vl : VecLen) :
    ofElems (elem32 x) vl.kl = x &&& BitVec.ofNat 512 (2 ^ vl.bits - 1) := by
  refine BitVec.eq_of_getLsbD_eq fun i hi => ?_
  rw [getLsbD_ofElems_elem32 x vl.kl_le, BitVec.getLsbD_and, BitVec.getLsbD_ofNat, Nat.testBit_two_pow_sub_one,
    decide_eq_true hi, Bool.true_and, Bool.and_comm, VecLen.bits]

theorem ofElems_elem32_eq_setWidth (x : Vec) (vl : VecLen) :
    ofElems (elem32 x) vl.kl = (x.setWidth vl.bits).setWidth 512 := by
  refine BitVec.eq_of_getLsbD_eq fun i hi => ?_
  rw [getLsbD_ofElems_elem32 x vl.kl_le, BitVec.getLsbD_setWidth, BitVec.getLsbD_setWidth, decide_eq_true hi,
    Bool.true_and, VecLen.bits]

/-! ## The permutation (spec/40_vpermps.md R103, R104, R120) -/

/-- Settles O24: the index field is the doubleword modulo `KL`, and an element is a shift and a truncation. -/
theorem permuteSelectsElements : Obligations.PermuteSelectsElements := by
  intro vl idx tbl j hj w sel
  have hsel : sel = indexOf vl idx j := by cases vl <;> rfl
  rw [hsel, elem32_permute vl idx tbl hj]
  exact ⟨indexOf_lt vl idx j, indexOf_eq_mod vl idx j, rfl, elem32_eq_shift tbl _⟩

/-- Settles O26: both tables are written element by element. -/
theorem identityAndSplat : Obligations.IdentityAndSplat := by
  refine fun vl idx tbl => ⟨fun hid => ?_, fun c hc => ?_⟩
  · rw [← ofElems_elem32_eq_and]
    exact ofElems_congr fun j hj => by rw [hid j hj]
  · exact ofElems_congr fun j hj => by rw [hc j hj]

/-- Settles O27: the inner permutation is asked for elements below `KL` only. -/
theorem permuteComposes : Obligations.PermuteComposes := fun vl i1 i2 _ tbl hcomp =>
  ofElems_congr fun j hj => by rw [elem32_permute vl i1 tbl (indexOf_lt vl i2 j), hcomp j hj]

/-- Settles O28: the index field is the doubleword modulo `KL`, so it is below `KL`. -/
theorem indexModuloKl : Obligations.IndexModuloKl := by
  refine fun vl i1 i2 tbl => ⟨fun hmod => ?_, fun j hj => ?_⟩
  · exact ofElems_congr fun j hj => by rw [indexOf_eq_mod, hmod j hj, ← indexOf_eq_mod]
  · exact ⟨indexOf vl i1 j, indexOf_lt vl i1 j, elem32_permute vl i1 tbl hj⟩

/-! ## The writemask (spec/40_vpermps.md R106 to R108) -/

section Mask

variable (vl : VecLen) (tmp old : Vec) (r : OpmaskReg) (k : Vector Opmask 8)

/-- With mask bit 1 the element is the new one, merging or zeroing. -/
theorem elem32_applyMask_of_set {j : Nat} (hj : j < vl.kl) (hbit : k[r.index].getLsbD j = true) :
    elem32 (applyMask vl tmp old (.merging r) k) j = elem32 tmp j ∧
      elem32 (applyMask vl tmp old (.zeroing r) k) j = elem32 tmp j :=
  ⟨(elem32_applyMask vl tmp old _ k hj).trans (if_pos hbit),
    (elem32_applyMask vl tmp old _ k hj).trans (if_pos hbit)⟩

/-- With mask bit 0 merging keeps the old element and zeroing writes zero. -/
theorem elem32_applyMask_of_clear {j : Nat} (hj : j < vl.kl) (hbit : k[r.index].getLsbD j = false) :
    elem32 (applyMask vl tmp old (.merging r) k) j = elem32 old j ∧
      elem32 (applyMask vl tmp old (.zeroing r) k) j = 0#32 :=
  have hbit' := ne_true_of_eq_false hbit
  ⟨(elem32_applyMask vl tmp old _ k hj).trans (if_neg hbit'),
    (elem32_applyMask vl tmp old _ k hj).trans (if_neg hbit')⟩

variable {vl r k} (hclear : ∀ j < vl.kl, k[r.index].getLsbD j = false)

include hclear

theorem applyMask_zeroing_of_clear : applyMask vl tmp old (.zeroing r) k = 0#512 :=
  (ofElems_congr fun j hj => by simp only [hclear j hj]; rfl).trans (ofElems_zero vl.kl)

theorem applyMask_merging_of_clear : applyMask vl tmp old (.merging r) k = (old.setWidth vl.bits).setWidth 512 :=
  (ofElems_congr fun j hj => by simp only [hclear j hj]; rfl).trans (ofElems_elem32_eq_setWidth old vl)

end Mask

/-- Settles O25: element by element, by the mask bit. -/
theorem maskKeepsOrZeroes : Obligations.MaskKeepsOrZeroes := by
  refine ⟨fun vl tmp old k r j hj => ⟨elem32_applyMask vl tmp old .noWritemask k hj,
    elem32_applyMask_of_set vl tmp old r k hj, elem32_applyMask_of_clear vl tmp old r k hj⟩, ?_, ?_⟩
  · exact fun vl tmp old old' k r => rfl
  · exact fun vl tmp old msk k k' h => applyMask_congr (fun r j hj _ => h r.index j hj) tmp old

/-! ## What a completed form writes (spec/40_vpermps.md R110, R115) -/

/-- A form whose enabling checks pass and whose table is read completes. -/
theorem vpermps_of_sourceTable_ok {f : Form} {ps : List LegacyPrefix} {d s1 : BitVec 5} {msk : Masking}
    {tbl : EvexTable} {len : Nat} {s : State} {x : Vec} (hstop : s.enablingStop f = none)
    (htable : s.sourceTable f ps len tbl = .ok x) :
    vpermps f ps d s1 msk tbl len s = .next ((s.writeV d (s.result f d s1 msk x)).retire len) := by
  simp only [vpermps, hstop, htable]

section Result

variable {s : State} {f : Form} (d s1 : BitVec 5) (msk : Masking) (x : Vec)

theorem result_ushiftRight : s.result f d s1 msk x >>> f.vl.bits = 0#512 := applyMask_ushiftRight ..

/-- `MAXVL` cuts nothing off a result: the 512-bit form needs AVX512F. -/
theorem truncV_result (hform : s.hasForm f = true) : s.truncV (s.result f d s1 msk x) = s.result f d s1 msk x := by
  cases f with
  | vex256 => exact State.truncV_of_high (result_ushiftRight (f := .vex256) d s1 msk x)
  | evex256 => exact State.truncV_of_high (result_ushiftRight (f := .evex256) d s1 msk x)
  | evex512 => exact State.truncV_of_maxvl hform _

theorem elem32_result {j : Nat} (hj : j < f.vl.kl) :
    elem32 (s.result f d s1 msk x) j =
      masked s msk j (elem32 x (indexOf f.vl (s.readV s1) j)) (elem32 (s.readV d) j) := by
  rw [State.result, elem32_applyMask _ _ _ _ _ hj, elem32_permute _ _ _ hj]
  cases msk <;> rfl

end Result

/-- The destination of a completed form holds the result of a table. -/
theorem readV_of_vpermps_next {f : Form} {ps : List LegacyPrefix} {d s1 : BitVec 5} {msk : Masking} {tbl : EvexTable}
    {len : Nat} {s t : State} (h : vpermps f ps d s1 msk tbl len s = .next t) :
    ∃ x, t.readV d = s.result f d s1 msk x := by
  obtain ⟨hstop, x, -, rfl⟩ := vpermps_next h
  obtain ⟨-, hform, -, -⟩ := enablingStop_eq_none.1 hstop
  exact ⟨x, by rw [State.readV_retire, State.readV_writeV_same, truncV_result d s1 msk x hform]⟩

/-- Settles O34: the destination holds a result, and no result has bits from `VL` on. -/
theorem upperBitsAreZeroed : Obligations.UpperBitsAreZeroed := by
  intro i s t h
  obtain ⟨ps, s1, msk, tbl, -, hi⟩ := exec_eq_vpermps_form i
  obtain ⟨x, hx⟩ := readV_of_vpermps_next ((hi s).symm.trans h)
  rw [hx]
  exact result_ushiftRight _ s1 msk x

section ZeroMask

variable {s t : State} {f : Form} {ps : List LegacyPrefix} {d s1 : BitVec 5} {r : OpmaskReg} {tbl : EvexTable}
  {len : Nat} (hclear : ∀ j < f.vl.kl, s.k[r.index].getLsbD j = false)

include hclear

theorem readV_of_zeroing_clear (h : vpermps f ps d s1 (.zeroing r) tbl len s = .next t) : t.readV d = 0#512 := by
  obtain ⟨x, hx⟩ := readV_of_vpermps_next h
  exact hx.trans (applyMask_zeroing_of_clear _ _ hclear)

theorem readV_of_merging_clear (h : vpermps f ps d s1 (.merging r) tbl len s = .next t) :
    t.readV d = ((s.readV d).setWidth f.vl.bits).setWidth 512 := by
  obtain ⟨x, hx⟩ := readV_of_vpermps_next h
  exact hx.trans (applyMask_merging_of_clear _ _ hclear)

end ZeroMask

/-- Settles O38: no element of the result is a new one, and 512 bits are all of the register. -/
theorem zeroWritemask : Obligations.ZeroWritemask := by
  refine fun ps d s1 r tbl s t => ⟨fun h8 => ⟨?_, ?_⟩, fun h16 => ⟨?_, fun h => ?_⟩⟩
  · exact readV_of_zeroing_clear (f := .evex256) h8
  · exact readV_of_merging_clear (f := .evex256) h8
  · exact readV_of_zeroing_clear (f := .evex512) h16
  · have hlow := readV_of_merging_clear (f := .evex512) h16 h
    rwa [Form.vl, show VecLen.bits .vl512 = 512 from rfl, BitVec.setWidth_eq, BitVec.setWidth_eq] at hlow

/-! ## The table that is read (spec/40_vpermps.md R100, R105) -/

theorem add_ofNat_add_ofNat (a : Quad) (n k : Nat) :
    a + BitVec.ofNat 64 n + BitVec.ofNat 64 k = a + BitVec.ofNat 64 (n + k) := by
  rw [BitVec.add_assoc, ← BitVec.ofNat_add]

/-- The four bytes of a doubleword that can be read, and the doubleword they make. -/
theorem bytes_of_dwordAt {s : State} {a : Quad} {e : Elem} (h : DwordAt s a e) :
    (∀ k < 4, s.canonical (a + BitVec.ofNat 64 k) = true ∧
      ∃ b, s.translate .read (a + BitVec.ofNat 64 k) = .ok b) ∧
      e = s.byteAt (a + 3) ++ s.byteAt (a + 2) ++ s.byteAt (a + 1) ++ s.byteAt a := by
  obtain ⟨b0, b1, b2, b3, ⟨hc0, ht0⟩, ⟨hc1, ht1⟩, ⟨hc2, ht2⟩, ⟨hc3, ht3⟩, rfl⟩ := h
  refine ⟨fun k hk => ?_, ?_⟩
  · rcases (by omega : k = 0 ∨ k = 1 ∨ k = 2 ∨ k = 3) with rfl | rfl | rfl | rfl
    · rw [BitVec.add_zero]
      exact ⟨hc0, b0, ht0⟩
    · exact ⟨hc1, b1, ht1⟩
    · exact ⟨hc2, b2, ht2⟩
    · exact ⟨hc3, b3, ht3⟩
  · rw [State.byteAt_of_ok ht0, State.byteAt_of_ok ht1, State.byteAt_of_ok ht2, State.byteAt_of_ok ht3]

theorem getD_map_addrs (g : Quad → Byte) (la : Quad) {n i : Nat} (hi : i < n) :
    ((addrs la n).map g).getD i 0#8 = g (la + BitVec.ofNat 64 i) := by
  simp [addrs, hi]

/-- The read of a row of doublewords that can be read gives them as its elements (spec/20_memory.md R40). -/
theorem memRead_dwords {s : State} {la : Quad} {n : Nat} {T : Nat → Elem} (hn : n ≤ 16)
    (h : ∀ j < n, DwordAt s (la + BitVec.ofNat 64 (4 * j)) (T j)) (seg : Segment) :
    ∃ x, s.memRead seg la (4 * n) false = .ok x ∧ ∀ j < n, elem32 x j = T j := by
  refine ⟨_, State.memRead_ok seg fun i hi => ?_, fun j hj => ?_⟩
  · obtain ⟨hbytes, -⟩ := bytes_of_dwordAt (h (i / 4) (by omega))
    have hbyte := hbytes (i % 4) (by omega)
    rwa [add_ofNat_add_ofNat, Nat.div_add_mod] at hbyte
  · obtain ⟨-, he⟩ := bytes_of_dwordAt (h j hj)
    rw [elem32_leValue _ (by omega), getD_map_addrs _ _ (by omega), getD_map_addrs _ _ (by omega),
      getD_map_addrs _ _ (by omega), getD_map_addrs _ _ (by omega), he]
    simp only [← add_ofNat_add_ofNat]
    rfl

/-- A table that can be read is read, and its elements are those the statements name. -/
theorem sourceTable_of_tableIs {s : State} {f : Form} {ps : List LegacyPrefix} {len : Nat} {T : Nat → Elem}
    {tbl : EvexTable} (h : TableIs s f ps len T tbl) :
    ∃ x, s.sourceTable f ps len tbl = .ok x ∧ ∀ j < f.vl.kl, elem32 x j = T j := by
  cases tbl with
  | reg n => exact ⟨s.readV n, rfl, fun j hj => (h j hj).symm⟩
  | mem m => exact memRead_dwords f.vl.kl_le h (segmentOf ps m)
  | bcst m =>
    obtain ⟨halign, e, he, hT⟩ := h
    obtain ⟨x, hread, hx⟩ := memRead_dwords (n := 1) (T := fun _ => e) (by decide)
      (fun j hj => by rwa [Nat.lt_one_iff.1 hj, Nat.mul_zero, BitVec.add_zero]) (segmentOf ps m)
    refine ⟨broadcast f.vl e, ?_, fun j hj => (elem32_broadcast f.vl e hj).trans (hT j hj).symm⟩
    simp only [State.sourceTable, halign, hread, hx 0 Nat.one_pos]

/-! ## The three forms complete (spec/40_vpermps.md R100 to R102) -/

/-- A ready form with a table that can be read writes the selected elements under its writemask. -/
theorem vpermps_completes {s : State} {f : Form} {ps : List LegacyPrefix} {len : Nat} {T : Nat → Elem}
    {tbl : EvexTable} (hready : Ready s f) (htable : TableIs s f ps len T tbl) (d s1 : BitVec 5) (msk : Masking) :
    ∃ t, vpermps f ps d s1 msk tbl len s = .next t ∧
      (∀ j < f.vl.kl, elem32 (t.readV d) j =
        masked s msk j (T (indexOf f.vl (s.readV s1) j)) (elem32 (s.readV d) j)) ∧
      t.readV d >>> f.vl.bits = 0#512 ∧ Frame s t d len := by
  obtain ⟨x, hread, hx⟩ := sourceTable_of_tableIs htable
  refine ⟨_, vpermps_of_sourceTable_ok (enablingStop_eq_none.2 hready) hread, ?_⟩
  obtain ⟨-, hform, -, -⟩ := hready
  rw [State.readV_retire, State.readV_writeV_same, truncV_result d s1 msk x hform]
  refine ⟨fun j hj => ?_, result_ushiftRight d s1 msk x, frame_writeV_retire s d _ len⟩
  rw [elem32_result d s1 msk x hj, hx _ (indexOf_lt _ _ j)]

/-- Settles O29: without a writemask every element is the new one. -/
theorem vex256Completes : Obligations.Vex256Completes := fun _ d s1 _ _ _ hready htable =>
  vpermps_completes hready htable (d.setWidth 5) (s1.setWidth 5) .noWritemask

/-- Settles O30: the writemask decides each element after the permutation. -/
theorem evex256Completes : Obligations.Evex256Completes := fun _ d s1 msk _ _ _ hready htable =>
  vpermps_completes hready htable d s1 msk

/-- Settles O31: nothing lies above bit 511. -/
theorem evex512Completes : Obligations.Evex512Completes := by
  intro ps d s1 msk tbl s T hready htable
  obtain ⟨t, ht, helem, -, hframe⟩ := vpermps_completes hready htable d s1 msk
  exact ⟨t, ht, helem, hframe⟩

/-- Settles O39: both forms write the same result, and `len` is the one difference. -/
theorem vexAndEvexAgree : Obligations.VexAndEvexAgree := fun ps d s1 n _ hvex hevex =>
  ⟨_, _, vpermps_reg hvex ps (d.setWidth 5) (s1.setWidth 5) (n.setWidth 5) .noWritemask _,
    vpermps_reg hevex ps (d.setWidth 5) (s1.setWidth 5) (n.setWidth 5) .noWritemask _, rfl, rfl, rfl⟩

/-! ## Another privilege level (spec/40_vpermps.md R119, spec/60_exceptions.md R150) -/

theorem locate_eq_ok_iff {s : State} {acc : Access} {loc : Quad} {b : Byte} :
    s.locate acc loc = .ok b ↔ s.mem.get loc.toNat = some b := by
  unfold State.locate
  cases s.mem.get loc.toNat <;> simp

/-- A read that answers a value found every byte canonical and translated. -/
theorem readable_of_memRead_ok {s : State} {seg : Segment} {la : Quad} {n : Nat} {mayCheck : Bool} {x : Vec}
    (h : s.memRead seg la n mayCheck = .ok x) :
    (∀ a ∈ addrs la n, s.canonical a = true ∧ ∃ b, s.translate .read a = .ok b) ∧
      x = leValue ((addrs la n).map s.byteAt) := by
  rcases s.memRead_cases seg la n mayCheck with
    ⟨-, e⟩ | ⟨hcan, ⟨-, e⟩ | ⟨hdev, ⟨f, -, e⟩ | ⟨hnone, ⟨-, e⟩ | ⟨hpage, e⟩ | ⟨q, -, e⟩⟩⟩⟩ <;>
    rw [h] at e <;> cases e
  refine ⟨fun a ha => ⟨hcan a ha, ?_⟩, rfl⟩
  obtain ⟨hgp, hss⟩ := State.addressFaults_eq_nil.1 hnone a ha
  cases htr : s.translate .read a with
  | ok b => exact ⟨b, rfl⟩
  | pageFault code p => exact absurd hpage (State.pageFaults_ne_nil ha htr)
  | gp0 => exact absurd htr hgp
  | ss0 => exact absurd htr hss
  | device => exact absurd htr (hdev a ha)

section Privilege

variable {s : State} (hreg : ∀ r ∈ s.regions, r.levels = .every) (c : BitVec 2)

include hreg

/-- Where the regions answer alike at all levels, the same region answers; only the code of a page fault reads CPL. -/
theorem translate_ok_with_cpl {acc : Access} {a : Quad} {b : Byte} (h : s.translate acc a = .ok b) :
    { s with cpl := c }.translate acc a = .ok b := by
  have hfind : (s.regions.find? fun r => r.applies acc c a) = s.regions.find? fun r => r.applies acc s.cpl a :=
    List.find?_congr fun r hr => by simp only [Region.applies, hreg r hr, Levels.has]
  unfold State.translate at h ⊢
  simp only [hfind]
  cases hr : s.regions.find? fun r => r.applies acc s.cpl a with
  | none => simpa only [hr, locate_eq_ok_iff] using h
  | some r =>
    cases ha : r.answer with
    | location loc => simpa only [hr, ha, locate_eq_ok_iff] using h
    | pageFault | gp0 | ss0 | device => simp [hr, ha] at h

theorem memRead_ok_with_cpl {seg : Segment} {la : Quad} {n : Nat} {mayCheck : Bool} {x : Vec}
    (h : s.memRead seg la n mayCheck = .ok x) : { s with cpl := c }.memRead seg la n false = .ok x := by
  obtain ⟨hok, rfl⟩ := readable_of_memRead_ok h
  have hbytes : (addrs la n).map { s with cpl := c }.byteAt = (addrs la n).map s.byteAt :=
    List.map_congr_left fun a ha => by
      obtain ⟨-, b, hb⟩ := hok a ha
      rw [State.byteAt_of_ok hb, State.byteAt_of_ok (translate_ok_with_cpl hreg c hb)]
  rw [← hbytes]
  refine State.memRead_ok seg fun i hi => ?_
  obtain ⟨hcan, b, hb⟩ := hok _ (mem_addrs.2 ⟨i, hi, rfl⟩)
  exact ⟨hcan, b, translate_ok_with_cpl hreg c hb⟩

section Checked

variable (hac : s.cfg.acCheck = false) {i : Instr} {x : Vec}

include hac

theorem operandRead_ok_with_cpl {o : List LegacyPrefix × MemRef × Bool} (h : operandRead s i o = .ok x) :
    operandRead { s with cpl := c } i o = .ok x := by
  have halign (la : Quad) : { s with cpl := c }.mayCheckAlignment la = false := by simp [State.mayCheckAlignment, hac]
  rw [operandRead, halign, Bool.and_false]
  exact memRead_ok_with_cpl hreg c h

theorem sourceTable_ok_with_cpl {ps : List LegacyPrefix} {tbl : EvexTable}
    (h : s.sourceTable (form i) ps i.len tbl = .ok x) :
    { s with cpl := c }.sourceTable (form i) ps i.len tbl = .ok x := by
  cases ho : operandOf ps tbl with
  | none =>
    cases tbl with
    | reg n => exact h
    | mem m | bcst m => cases ho
  | some o =>
    obtain ⟨g, hg⟩ := sourceTable_of_operand (i := i) ho
    rw [hg] at h ⊢
    cases hread : operandRead s i o with
    | error st =>
      rw [hread] at h
      cases h
    | ok y => rwa [operandRead_ok_with_cpl hreg c hac hread, ← hread]

end Checked

end Privilege

/-- Settles O37: CPL enters through the read of the table alone. -/
theorem notPrivileged : Obligations.NotPrivileged := by
  intro i s t c hreg hac h
  obtain ⟨ps, s1, msk, tbl, -, hi⟩ := exec_eq_vpermps_form i
  rw [hi] at h ⊢
  obtain ⟨hstop, x, htable, rfl⟩ := vpermps_next h
  exact vpermps_of_sourceTable_ok hstop (sourceTable_ok_with_cpl hreg c hac htable)

end Sys2Proof.Proofs

/-! PROOFS. The statements about exceptions: what they record, the enabling checks, the faults of the fetch and of the memory
operand, and the end of a run. -/

namespace Sys2Proof.Proofs

open Sys2Proof.Machine Sys2Proof.Spec

/-- Settles O49: each field of each exception. -/
theorem exceptionVectors : Obligations.ExceptionVectors := by
  intro r la code
  simp [Fault.vector, Fault.errorCode, Fault.cr2]

/-! ## The enabling checks (spec/60_exceptions.md R131, R133) -/

theorem enablingStop_of_disabled {s : State} {f : Form} (hm : s.mode ≠ .prot32) (hd : s.disabled f = true) :
    s.enablingStop f = some (raise .ud s) := by
  rw [State.enablingStop, if_neg hm, if_pos hd]

theorem enablingStop_of_taskSwitched {s : State} {f : Form} (hen : Enabled s f) (hts : s.cr0TS = true) :
    s.enablingStop f = some (raise .nm s) := by
  have hm : s.mode ≠ .prot32 := by simp [hen.1]
  have hd : ¬ s.disabled f = true := by simp [(disabled_eq_false hm).2 hen]
  rw [State.enablingStop, if_neg hm, if_neg hd, if_pos hts]

/-- The fault of the enabling checks is #UD or #NM. -/
theorem enablingStop_fault {s : State} {f : Form} {e : Fault} (h : s.enablingStop f = some (.fault e)) :
    e = .ud s.rip ∨ e = .nm s.rip := by
  unfold State.enablingStop at h
  split_ifs at h <;> cases h
  · exact .inl rfl
  · exact .inr rfl

/-- Whatever its operands, an instruction stops where the enabling checks of its form do. -/
theorem exec_of_enablingStop {i : Instr} {s : State} {st : Stop} (h : s.enablingStop (form i) = some st) :
    exec i s = st.outcome := by
  obtain ⟨ps, s1, msk, tbl, -, hi⟩ := exec_eq_vpermps_form i
  simp only [hi, vpermps, h]

theorem exec_of_not_enabled {i : Instr} {s : State} (hm : s.mode ≠ .prot32) (hen : ¬ Enabled s (form i)) :
    exec i s = .fault (.ud s.rip) :=
  exec_of_enablingStop (enablingStop_of_disabled hm (by simpa using mt (disabled_eq_false hm).1 hen))

/-- A field is all ones exactly when each of its bits is one. -/
theorem extractLsb'_eq_allOnes (x : BitVec 64) (n w : Nat) :
    x.extractLsb' n w = BitVec.allOnes w ↔ ∀ j < w, x.getLsbD (n + j) = true := by
  rw [BitVec.eq_of_getLsbD_eq_iff]
  refine forall₂_congr fun j hj => ?_
  simp [hj]

/-- `OS_ENABLED_AVX` by its bits (spec/10_state.md R30). -/
theorem osEnabledAvx_iff {s : State} : s.osEnabledAvx = true ↔
    s.cr4.getLsbD 18 = true ∧ s.xcr0.getLsbD 1 = true ∧ s.xcr0.getLsbD 2 = true := by
  have hfield : s.xcr0.extractLsb' 1 2 = 0b11#2 ↔ s.xcr0.getLsbD 1 = true ∧ s.xcr0.getLsbD 2 = true :=
    (extractLsb'_eq_allOnes s.xcr0 1 2).trans (by simp only [Nat.forall_lt_succ_left]; simp)
  rw [State.osEnabledAvx, Bool.and_eq_true, beq_iff_eq, hfield, State.cr4OSXSAVE]

/-- `OS_ENABLED_AVX512` by its bits (spec/10_state.md R30). -/
theorem osEnabledAvx512_iff {s : State} : s.osEnabledAvx512 = true ↔
    s.osEnabledAvx = true ∧ s.xcr0.getLsbD 5 = true ∧ s.xcr0.getLsbD 6 = true ∧ s.xcr0.getLsbD 7 = true := by
  have hfield : s.xcr0.extractLsb' 5 3 = 0b111#3 ↔
      s.xcr0.getLsbD 5 = true ∧ s.xcr0.getLsbD 6 = true ∧ s.xcr0.getLsbD 7 = true :=
    (extractLsb'_eq_allOnes s.xcr0 5 3).trans (by simp only [Nat.forall_lt_succ_left]; simp)
  rw [State.osEnabledAvx512, Bool.and_eq_true, beq_iff_eq, hfield, State.osEnabledAvx]

theorem osEnabledAvx_of_osEnabled {s : State} {f : Form} (h : s.osEnabled f = true) : s.osEnabledAvx = true := by
  cases f with
  | vex256 => exact h
  | evex256 | evex512 => exact (osEnabledAvx512_iff.1 h).1

/-- Settles O51: each of the conditions denies that the form is enabled. -/
theorem disabledFormsAreUd : Obligations.DisabledFormsAreUd := by
  intro i s h
  rcases h with hm | hm | ⟨hm, hmissing⟩
  · exact exec_of_not_enabled (by simp [hm]) (by simp [Enabled, hm])
  · exact exec_of_not_enabled (by simp [hm]) (by simp [Enabled, hm])
  · refine exec_of_not_enabled (by simp [hm]) fun ⟨_, hform, hos⟩ => ?_
    obtain ⟨hxsave, hsse, havx⟩ := osEnabledAvx_iff.1 (osEnabledAvx_of_osEnabled hos)
    simp only [hxsave, hsse, havx, Bool.true_eq_false, false_or] at hmissing
    cases i with
    | vpermpsVex256 => simp_all [form, State.hasForm]
    | vpermpsEvex256 | vpermpsEvex512 =>
      obtain ⟨-, hopmask, hzmm, hhi16⟩ := osEnabledAvx512_iff.1 hos
      simp_all [form, State.hasForm]

/-- Settles O52: CR0.TS is asked for behind the #UD conditions and before the table is read. -/
theorem taskSwitchedIsNm : Obligations.TaskSwitchedIsNm := fun _ _ hm hform hos hts =>
  ⟨exec_of_enablingStop (enablingStop_of_taskSwitched ⟨hm, hform, hos⟩ hts), rfl, rfl⟩

/-! ## The saved instruction pointer (spec/60_exceptions.md R142) -/

theorem outcome_eq_fault {st : Stop} {e : Fault} : st.outcome = .fault e ↔ st = .fault e := by
  cases st <;> simp [Stop.outcome]

theorem addressFault_savedRip (seg : Segment) (r : Quad) : (seg.addressFault r).savedRip = r := by
  cases seg <;> rfl

/-- What a read that faults raises: #AC(0) is subject to the alignment check, with canonical bytes. -/
theorem memRead_fault {s : State} {seg : Segment} {la : Quad} {n : Nat} {mayCheck : Bool} {e : Fault}
    (h : s.memRead seg la n mayCheck = .error (.fault e)) :
    e = seg.addressFault s.rip ∨ e = .gp0 s.rip ∨ e = .ss0 s.rip ∨ (∃ code cr2, e = .pf s.rip code cr2) ∨
      e = .ac0 s.rip ∧ mayCheck = true ∧ ∀ a ∈ addrs la n, s.canonical a = true := by
  rcases s.memRead_cases seg la n mayCheck with
    ⟨-, hr⟩ | ⟨hcan, ⟨-, hr⟩ | ⟨-, ⟨f, hf, hr⟩ | ⟨-, ⟨hcheck, hr⟩ | ⟨-, hr⟩ | ⟨q, -, hr⟩⟩⟩⟩ <;>
    rw [h] at hr <;> cases hr
  · exact .inl rfl
  · rcases State.mem_addressFaults hf with ⟨rfl, -⟩ | ⟨rfl, -⟩
    · exact .inr (.inl rfl)
    · exact .inr (.inr (.inl rfl))
  · exact .inr (.inr (.inr (.inr ⟨rfl, hcheck, hcan⟩)))
  · exact .inr (.inr (.inr (.inl ⟨_, _, rfl⟩)))

theorem memRead_savedRip {s : State} {seg : Segment} {la : Quad} {n : Nat} {mayCheck : Bool} {e : Fault}
    (h : s.memRead seg la n mayCheck = .error (.fault e)) : e.savedRip = s.rip := by
  rcases memRead_fault h with rfl | rfl | rfl | ⟨code, cr2, rfl⟩ | ⟨rfl, -⟩
  · exact addressFault_savedRip seg s.rip
  all_goals rfl

/-- A fault of an instruction is one of its enabling checks or of the read of its memory operand. -/
theorem exec_fault {i : Instr} {s : State} {e : Fault} (h : exec i s = .fault e) :
    s.enablingStop (form i) = some (.fault e) ∨
      ∃ o, memOperand i = some o ∧ operandRead s i o = .error (.fault e) := by
  obtain ⟨ps, s1, msk, tbl, hop, hi⟩ := exec_eq_vpermps_operand i
  rw [hi, vpermps] at h
  cases hstop : s.enablingStop (form i) with
  | some st =>
    rw [hstop] at h
    exact .inl (congrArg some (outcome_eq_fault.1 h))
  | none =>
    right
    cases ho : operandOf ps tbl with
    | none =>
      cases tbl with
      | reg n => simp [hstop, State.sourceTable] at h
      | mem m | bcst m => cases ho
    | some o =>
      obtain ⟨g, hg⟩ := sourceTable_of_operand (i := i) ho
      refine ⟨o, hop.trans ho, ?_⟩
      rw [hstop, hg] at h
      cases hread : operandRead s i o with
      | ok x => simp [hread, Except.map] at h
      | error st =>
        rw [hread] at h
        exact congrArg _ (outcome_eq_fault.1 h)

theorem exec_savedRip {i : Instr} {s : State} {e : Fault} (h : exec i s = .fault e) : e.savedRip = s.rip := by
  rcases exec_fault h with hstop | ⟨o, -, hread⟩
  · rcases enablingStop_fault hstop with rfl | rfl <;> rfl
  · exact memRead_savedRip hread

theorem fetchStop_savedRip {s : State} {a : Quad} {e : Fault} (h : s.fetchStop a = .fault e) : e.savedRip = s.rip := by
  unfold State.fetchStop at h
  split at h
  · split at h <;> cases h <;> rfl
  · cases h
    rfl

theorem udOrGp0_savedRip {s : State} {e : Fault} (h : s.udOrGp0.outcome = .fault e) : e.savedRip = s.rip := by
  rcases udOrGp0_outcome s with hu | hg
  · cases hu.symm.trans h
    rfl
  · cases hg.symm.trans h
    rfl

theorem decodeStop_savedRip {s : State} {bs : List Byte} {w : Reject} {e : Fault}
    (h : (s.decodeStop bs w).outcome = .fault e) : e.savedRip = s.rip := by
  cases w with
  | notVpermps => cases h
  | illegal =>
    cases h
    rfl
  | tooLong f =>
    rw [State.decodeStop] at h
    split at h
    · exact udOrGp0_savedRip h
    · cases h
      rfl
  | illegalTooLong => exact udOrGp0_savedRip h
  | unfinished => exact fetchStop_savedRip (outcome_eq_fault.1 h)

theorem step_savedRip {s : State} {e : Fault} (h : step s = .fault e) : e.savedRip = s.rip := by
  by_cases hm : s.mode = .prot32
  · rw [(prot32IsRefused s hm).1] at h
    cases h
  · cases hd : decode s.fetchBytes with
    | instr i => exact exec_savedRip (step_instr hm hd ▸ h)
    | reject w => exact decodeStop_savedRip (step_reject hm hd ▸ h)

/-- Settles O50: every exception is taken by `raise`, which saves `rip`. -/
theorem faultsRecordTheInstruction : Obligations.FaultsRecordTheInstruction := by
  rintro s f (⟨i, h⟩ | h)
  · exact exec_savedRip h
  · exact step_savedRip h

/-! ## The faults of the fetch (spec/60_exceptions.md R147) -/

/-- A page fault of `Translate` has the computed bits of R134 and R147 in its code. -/
theorem code_of_translate_pageFault {s : State} {acc : Access} {a : Quad} {code : BitVec 32} {la : Option Quad}
    (h : s.translate acc a = .pageFault code la) : ∃ given, code = s.pfCode acc given := by
  have hloc {loc : Quad} (hl : s.locate acc loc = .pageFault code la) : ∃ given, code = s.pfCode acc given := by
    cases hget : s.mem.get loc.toNat with
    | some b =>
      rw [locate_of_mapped hget] at hl
      cases hl
    | none =>
      rw [locate_of_unmapped hget] at hl
      cases hl
      exact ⟨_, rfl⟩
  unfold State.translate at h
  split at h
  · exact hloc h
  · split at h
    · exact hloc h
    · cases h
      exact ⟨_, rfl⟩
    all_goals cases h

theorem fetchByte_eq_none {s : State} {a : Quad}
    (h : s.canonical a = true → ∀ b, s.translate .fetch a ≠ .ok b) : s.fetchByte a = none := by
  unfold State.fetchByte
  split
  · rename_i hcan
    split
    · rename_i b hb
      exact absurd hb (h hcan b)
    all_goals rfl
  · rfl

/-- The bytes fetched end in front of the first byte that cannot be fetched. -/
theorem fetchBytes_eq {s : State} {bs : List Byte} (hlen : bs.length < fetchLimit) (h : Fetches s bs)
    (hend : s.fetchByte (s.fetchAddr + BitVec.ofNat 64 bs.length) = none) : s.fetchBytes = bs := by
  obtain ⟨n, hn⟩ : ∃ n, fetchLimit - bs.length = n + 1 := Nat.exists_eq_add_one.2 (Nat.sub_pos_of_lt hlen)
  rw [State.fetchBytes, s.fetchFrom_append bs fetchLimit s.fetchAddr hlen.le h, hn, State.fetchFrom, hend,
    List.append_nil]

/-- Settles O22: the bytes fetched are `bs`, and the step stops as the fetch of the byte behind them does. -/
theorem fetchFault : Obligations.FetchFault := by
  intro s bs hm hlen hfetch hdec a
  have hstep (hend : s.canonical a = true → ∀ b, s.translate .fetch a ≠ .ok b) :
      step s = (s.fetchStop a).outcome := by
    have hbs : s.fetchBytes = bs := fetchBytes_eq hlen hfetch (fetchByte_eq_none hend)
    rw [step_reject hm (hbs.symm ▸ hdec), hbs]
    rfl
  refine ⟨fun hcan => ?_, fun code la hcan htr => ⟨?_, ?_⟩, fun hcan htr => ?_, fun hcan htr => ?_⟩
  · rw [hstep (by simp [hcan])]
    simp [State.fetchStop, hcan, raise, Stop.outcome]
  · rw [hstep (by simp [htr])]
    simp [State.fetchStop, hcan, htr, raise, Stop.outcome]
  · obtain ⟨given, rfl⟩ := code_of_translate_pageFault htr
    exact (pfCode_bits s .fetch given).2.2.2
  · rcases htr with htr | htr <;>
    · rw [hstep (by simp [htr])]
      simp [State.fetchStop, hcan, htr, raise, Stop.outcome]
  · rw [hstep (by simp [htr])]
    simp [State.fetchStop, hcan, htr, Stop.outcome]

/-! ## The page fault of the operand (spec/60_exceptions.md R134) -/

/-- A byte that `Translate` faults makes the read a page fault, when no fault of R141 comes before and no alignment check
applies. -/
theorem operandRead_of_pageFault {s : State} {i : Instr} {o : List LegacyPrefix × MemRef × Bool} {k : Nat}
    (hk : k < operandBytes i o)
    (hall : ∀ j < operandBytes i o, s.canonical (byteAddr s i o j) = true ∧
      s.translate .read (byteAddr s i o j) ≠ .device ∧ s.translate .read (byteAddr s i o j) ≠ .gp0 ∧
      s.translate .read (byteAddr s i o j) ≠ .ss0)
    (hac : o.2.2 = true → s.mayCheckAlignment (operandAddr s i o) = false)
    (hpf : ∃ code la, s.translate .read (byteAddr s i o k) = .pageFault code la) :
    ∃ q ∈ s.pageFaults (addrs (operandAddr s i o) (operandBytes i o)),
      operandRead s i o = .error (raise (fun r => .pf r q.2 q.1) s) := by
  obtain ⟨code, la, htr⟩ := hpf
  rcases s.memRead_cases (segmentOf o.1 o.2.1) (operandAddr s i o) (operandBytes i o)
    (o.2.2 && s.mayCheckAlignment (operandAddr s i o)) with
    ⟨⟨a, ha, hfalse⟩, -⟩ | ⟨-, ⟨⟨a, ha, hdev⟩, -⟩ | ⟨-, ⟨f, hf, -⟩ | ⟨-, ⟨hcheck, -⟩ | ⟨hnone, -⟩ | hread⟩⟩⟩
  · obtain ⟨j, hj, rfl⟩ := mem_operandAddrs.1 ha
    rw [(hall j hj).1] at hfalse
    cases hfalse
  · obtain ⟨j, hj, rfl⟩ := mem_operandAddrs.1 ha
    exact absurd hdev (hall j hj).2.1
  · rcases State.mem_addressFaults hf with ⟨-, a, ha, hfa⟩ | ⟨-, a, ha, hfa⟩ <;>
      obtain ⟨j, hj, rfl⟩ := mem_operandAddrs.1 ha
    · exact absurd hfa (hall j hj).2.2.1
    · exact absurd hfa (hall j hj).2.2.2
  · rw [Bool.and_eq_true] at hcheck
    rw [hac hcheck.1] at hcheck
    cases hcheck.2
  · exact absurd hnone (State.pageFaults_ne_nil (mem_operandAddrs.2 ⟨k, hk, rfl⟩) htr)
  · exact hread

/-- Settles O54: the fault raised is one that a failing byte allows. -/
theorem operandPageFault : Obligations.OperandPageFault := by
  intro i s o k hready ho hk hall hac hpf
  obtain ⟨⟨cr2, code⟩, hq, hread⟩ := operandRead_of_pageFault hk hall hac hpf
  obtain ⟨f, hf, la, htr, hcr2⟩ := State.mem_pageFaults.1 hq
  obtain ⟨hmem, hla⟩ := mem_cr2Candidates hcr2
  obtain ⟨j, hj, rfl⟩ := mem_operandAddrs.1 hf
  obtain ⟨c, hc, rfl⟩ := mem_operandAddrs.1 hmem
  obtain ⟨given, rfl⟩ := code_of_translate_pageFault htr
  obtain ⟨-, hwr, hus, hid⟩ := pfCode_bits s .read given
  refine ⟨c, j, _, la, hc, hj, htr, exec_of_operandRead_error hready ho hread, ?_, hwr, hus, hid⟩
  refine hla.imp_right fun ⟨hout, hpage⟩ => ⟨fun l hl x hx hxl => ?_, hpage⟩
  exact hout l hl (mem_operandAddrs.2 ⟨x, hx, hxl.symm⟩)

/-! ## The alignment check (spec/60_exceptions.md R137) -/

/-- A read subject to the alignment check raises #AC(0) or does what it does without. -/
theorem memRead_ac0_or_unchecked (s : State) (seg : Segment) (la : Quad) (n : Nat) (mayCheck : Bool) :
    s.memRead seg la n mayCheck = .error (raise .ac0 s) ∨
      s.memRead seg la n mayCheck = s.memRead seg la n false := by
  cases mayCheck with
  | false => exact .inr rfl
  | true =>
    simp only [State.memRead, if_true, Bool.false_eq_true, if_false]
    split
    · exact .inr rfl
    split
    · exact .inr rfl
    split
    · exact .inr rfl
    · exact (pickFrom_two ..).symm

/-- An #AC(0) is that of a broadcast read whose check applies and whose bytes are canonical. -/
theorem exec_ac0 {i : Instr} {s : State} {r : Quad} (h : exec i s = .fault (.ac0 r)) :
    ∃ o, memOperand i = some o ∧ o.2.2 = true ∧ s.mayCheckAlignment (operandAddr s i o) = true ∧
      ∀ k < operandBytes i o, s.canonical (byteAddr s i o k) = true := by
  rcases exec_fault h with hstop | ⟨o, ho, hread⟩
  · rcases enablingStop_fault hstop with h | h <;> cases h
  rcases memRead_fault hread with h | h | h | ⟨_, _, h⟩ | ⟨-, hcheck, hcan⟩
  · revert h
    cases segmentOf o.1 o.2.1 <;> simp [Segment.addressFault]
  · cases h
  · cases h
  · cases h
  · obtain ⟨hbc, halign⟩ := Bool.and_eq_true_iff.1 hcheck
    exact ⟨o, ho, hbc, halign, fun k hk => hcan _ (mem_operandAddrs.2 ⟨k, hk, rfl⟩)⟩

theorem mayCheckAlignment_iff {s : State} {la : Quad} : s.mayCheckAlignment la = true ↔
    s.cfg.acCheck = true ∧ s.cr0.getLsbD 18 = true ∧ s.rflags.getLsbD 18 = true ∧ s.cpl = 3#2 ∧ la.toNat % 4 ≠ 0 := by
  simp [State.mayCheckAlignment, State.alignmentChecked, State.cr0AM, State.rflagsAC, and_assoc]

/-- The machine without the parameter `AC_CHECK`. -/
def withoutAcCheck (s : State) : State := { s with cfg := { s.cfg with acCheck := false } }

theorem operandRead_ac0_or_withoutAcCheck (s : State) (i : Instr) (o : List LegacyPrefix × MemRef × Bool) :
    operandRead s i o = .error (raise .ac0 s) ∨ operandRead s i o = operandRead (withoutAcCheck s) i o := by
  have hoff : operandRead (withoutAcCheck s) i o =
      s.memRead (segmentOf o.1 o.2.1) (operandAddr s i o) (operandBytes i o) false := by
    rw [operandRead, show (withoutAcCheck s).mayCheckAlignment _ = false from rfl, Bool.and_false]
    rfl
  rw [hoff]
  exact memRead_ac0_or_unchecked ..

/-- A ready instruction with a memory operand raises #AC(0) or does what it does without `AC_CHECK`. -/
theorem exec_ac0_or_withoutAcCheck {i : Instr} {s : State} {o : List LegacyPrefix × MemRef × Bool} (hready : Ready s (form i))
    (ho : memOperand i = some o) :
    exec i s = .fault (.ac0 s.rip) ∨
      exec i s = mapNext (fun t => { t with cfg := s.cfg }) (exec i (withoutAcCheck s)) := by
  rcases operandRead_ac0_or_withoutAcCheck s i o with hread | hread
  · exact .inl (exec_of_operandRead_error hready ho hread)
  · obtain ⟨ps, s1, msk, tbl, hop, hi⟩ := exec_eq_vpermps_operand i
    obtain ⟨g, hg⟩ := sourceTable_of_operand (i := i) (hop ▸ ho)
    rw [hi, hi]
    exact .inr (vpermps_eq_mapNext rfl (by rw [hg, hg, hread]) fun _ => rfl)

/-- Settles O58: the read makes the choice, and `exec_ac0` says when it has one. -/
theorem alignmentCheckIsAChoice : Obligations.AlignmentCheckIsAChoice := by
  refine ⟨fun i s o hready ho hbc => ⟨exec_ac0_or_withoutAcCheck hready ho, fun hnot h => ?_⟩, fun i s hop r h => ?_⟩
  · obtain ⟨o', ho', -, halign, hcan⟩ := exec_ac0 h
    cases ho.symm.trans ho'
    obtain ⟨hcfg, ham, hac, hcpl, hmod⟩ := mayCheckAlignment_iff.1 halign
    rcases hnot with hx | hx | hx | hx | hx | ⟨j, hj, hx⟩
    · exact Bool.false_ne_true (hx.symm.trans hcfg)
    · exact Bool.false_ne_true (hx.symm.trans ham)
    · exact Bool.false_ne_true (hx.symm.trans hac)
    · exact hx hcpl
    · exact hmod hx
    · rw [hcan j (by simpa [operandBytes, hbc] using hj)] at hx
      cases hx
  · obtain ⟨o, ho, hbc, -⟩ := exec_ac0 h
    rcases hop with hop | ⟨ps, m, hop⟩
    · cases hop.symm.trans ho
    · cases hop.symm.trans ho
      cases hbc

/-! ## The end of a run (spec/70_reset_and_hazards.md R164) -/

section Run

variable {ripEnd : Quad} {s : State}

theorem runTo_of_end (h : s.rip = ripEnd) (n : Nat) : runTo ripEnd n s = some (.next s) := by
  cases n <;> simp [runTo, h]

theorem runTo_zero (h : s.rip ≠ ripEnd) : runTo ripEnd 0 s = none := by simp [runTo, h]

variable (h : s.rip ≠ ripEnd) (n : Nat)

include h

theorem runTo_of_step_next {t : State} (hs : step s = .next t) : runTo ripEnd (n + 1) s = runTo ripEnd n t := by
  simp [runTo, h, hs]

theorem runTo_of_step_fault {f : Fault} (hs : step s = .fault f) : runTo ripEnd (n + 1) s = some (.fault f) := by
  simp [runTo, h, hs]

theorem runTo_of_step_refused {r : Refusal} (hs : step s = .refused r) :
    runTo ripEnd (n + 1) s = some (.refused r) := by
  simp [runTo, h, hs]

end Run

theorem run_of_step_next {M : Host.Core} {n : Nat} {s t : M.State} (h : M.step s = .next t) :
    M.run (n + 1) s = M.run n t := by
  rw [Host.Core.run, h]

/-- More steps change nothing for a run that has ended. -/
theorem runTo_add {ripEnd : Quad} {n : Nat} {s : State} {o : Host.Outcome State Fault Refusal}
    (h : runTo ripEnd n s = some o) (k : Nat) : runTo ripEnd (n + k) s = some o := by
  induction n generalizing s with
  | zero =>
    by_cases hend : s.rip = ripEnd
    · rwa [runTo_of_end hend] at h ⊢
    · simp [runTo_zero hend] at h
  | succ n ih =>
    by_cases hend : s.rip = ripEnd
    · rwa [runTo_of_end hend] at h ⊢
    rw [Nat.add_right_comm]
    cases hs : step s with
    | next t =>
      rw [runTo_of_step_next hend _ hs] at h ⊢
      exact ih h
    | fault f => rwa [runTo_of_step_fault hend _ hs] at h ⊢
    | refused r => rwa [runTo_of_step_refused hend _ hs] at h ⊢

/-- Where a run ends: in a state that steps lead to, either at the end address or elsewhere with the stop of its step. -/
theorem exists_run_of_runTo {ripEnd : Quad} {n : Nat} {s : State} {o : Host.Outcome State Fault Refusal}
    (h : runTo ripEnd n s = some o) : ∃ m u, core.run m s = .next u ∧
      (m ≤ n ∧ u.rip = ripEnd ∧ o = .next u ∨ m < n ∧ u.rip ≠ ripEnd ∧ step u = o ∧ ∀ t, o ≠ .next t) := by
  induction n generalizing s with
  | zero =>
    by_cases hend : s.rip = ripEnd
    · rw [runTo_of_end hend] at h
      cases h
      exact ⟨0, s, rfl, .inl ⟨le_rfl, hend, rfl⟩⟩
    · simp [runTo_zero hend] at h
  | succ n ih =>
    by_cases hend : s.rip = ripEnd
    · rw [runTo_of_end hend] at h
      cases h
      exact ⟨0, s, rfl, .inl ⟨Nat.zero_le _, hend, rfl⟩⟩
    cases hs : step s with
    | next t =>
      rw [runTo_of_step_next hend _ hs] at h
      obtain ⟨m, u, hrun, hu⟩ := ih h
      exact ⟨m + 1, u, (run_of_step_next (M := core) hs).trans hrun,
        hu.imp (And.imp_left Nat.succ_le_succ) (And.imp_left Nat.succ_lt_succ)⟩
    | fault f =>
      rw [runTo_of_step_fault hend _ hs] at h
      cases h
      exact ⟨0, s, rfl, .inr ⟨Nat.succ_pos n, hend, hs, by simp⟩⟩
    | refused r =>
      rw [runTo_of_step_refused hend _ hs] at h
      cases h
      exact ⟨0, s, rfl, .inr ⟨Nat.succ_pos n, hend, hs, by simp⟩⟩

/-- Settles O60: from where a run ends, and one step of a run that is not at its end. -/
theorem endedRunStaysEnded : Obligations.EndedRunStaysEnded := by
  intro ripEnd n k s
  refine ⟨fun o h => runTo_add h k, fun t h => ?_, fun f h => ?_, fun hend => runTo_of_end hend n, fun hend =>
    ⟨runTo_zero hend, fun t => runTo_of_step_next hend n, fun f => runTo_of_step_fault hend n,
      fun r => runTo_of_step_refused hend n⟩⟩
  · obtain ⟨m, u, hrun, ⟨hm, hu, ho⟩ | ⟨-, -, -, hnext⟩⟩ := exists_run_of_runTo h
    · cases ho
      exact ⟨hu, m, hm, hrun⟩
    · exact absurd rfl (hnext t)
  · obtain ⟨m, u, hrun, ⟨-, -, ho⟩ | ⟨hm, hu, hs, -⟩⟩ := exists_run_of_runTo h
    · cases ho
    · exact ⟨step_savedRip hs ▸ hu, m, hm, u, hrun, hu, hs⟩

end Sys2Proof.Proofs

/-! PROOFS. The statements about reset and launch: the values after a reset and an INIT, the boot steps, and the first step of
a launched machine. -/

namespace Sys2Proof.Proofs

open Sys2Proof.Machine Sys2Proof.Spec

/-! ## The boot steps (spec/70_reset_and_hazards.md R163) -/

theorem mode_enabled (s : State) : s.enabled.mode = .long64 := by
  simp [State.mode, State.cr0PE, State.rflagsVM, State.eferLMA]

theorem osEnabledAvx_enabled (s : State) : s.enabled.osEnabledAvx = true := by
  simp [osEnabledAvx_iff]

theorem osEnabled_enabled (s : State) (f : Form) : s.enabled.osEnabled f = true := by
  cases f with
  | vex256 => exact osEnabledAvx_enabled s
  | evex256 | evex512 => exact osEnabledAvx512_iff.2 ⟨osEnabledAvx_enabled s, by simp⟩

theorem cr0TS_enabled (s : State) : s.enabled.cr0TS = false := by
  simp [State.cr0TS]

/-- Settles O4: each boot step sets or clears the bits that one of the conditions reads. -/
theorem bootStepsEnableEveryForm : Obligations.BootStepsEnableEveryForm := by
  intro s havx2 havx512f havx512vl f
  have hform : s.enabled.hasForm f = true := by
    cases f <;> simp [State.hasForm, havx2, havx512f, havx512vl]
  exact ⟨mode_enabled s, hform, osEnabled_enabled s f, cr0TS_enabled s⟩

/-! ## The launch of a table word (spec/70_reset_and_hazards.md R160, R163, R165) -/

theorem add_one_add_ofNat (a : Quad) (j : Nat) : a + 1 + BitVec.ofNat 64 j = a + BitVec.ofNat 64 (j + 1) := by
  rw [Nat.add_comm j 1]
  exact add_ofNat_add_ofNat a 1 j

theorem get_setBytes_of_forall_ne {bs : List Byte} {m : Memory} {a c : Quad}
    (h : ∀ j < bs.length, c ≠ a + BitVec.ofNat 64 j) : (m.setBytes a bs).get c.toNat = m.get c.toNat := by
  induction bs generalizing m a with
  | nil => rfl
  | cons b bs ih =>
    have hne : c.toNat ≠ a.toNat := fun hca => h 0 (by simp) (by simpa using BitVec.eq_of_toNat_eq hca)
    rw [Memory.setBytes, ih fun j hj => ?_, Memory.get_set_other hne]
    rw [add_one_add_ofNat]
    exact h (j + 1) (by simpa using hj)

/-- A row of bytes that does not reach around the address space is read back byte by byte. -/
theorem get_setBytes {bs : List Byte} {m : Memory} {a : Quad} (hlen : bs.length ≤ 2 ^ 64) {j : Nat} (hj : j < bs.length) :
    (m.setBytes a bs).get (a + BitVec.ofNat 64 j).toNat = some bs[j] := by
  induction bs generalizing m a j with
  | nil => cases hj
  | cons b bs ih =>
    rw [List.length_cons] at hlen hj
    rw [Memory.setBytes]
    cases j with
    | zero =>
      rw [BitVec.add_zero, get_setBytes_of_forall_ne fun k hk => by bv_omega, Memory.get_set_same]
      rfl
    | succ j =>
      rw [← add_one_add_ofNat]
      exact ih (by omega) (by omega)

/-- Where no region answers, a canonical address with a mapped byte can be fetched. -/
theorem fetchByte_of_mapped {s : State} {a : Quad} {b : Byte} (hcan : s.canonical a = true) (hreg : s.regions = [])
    (hget : s.mem.get a.toNat = some b) : s.fetchByte a = some b := by
  have htr : s.translate .fetch a = .ok b := by
    rw [translate_of_no_region (by simp [hreg]), locate_of_mapped hget]
  simp [State.fetchByte, hcan, htr]

theorem withFetchWord_of_decodeTableWord {s : State} {nbits w : Nat} {i : Instr} (h : decodeTableWord nbits w = some i) :
    s.withFetchWord nbits w = (s.launch (tableBytes nbits w)).mapOperand i := by
  simp only [State.withFetchWord, h]

theorem decode_of_decodeTableWord {nbits w : Nat} {i : Instr} (h : decodeTableWord nbits w = some i) :
    decode (tableBytes nbits w) = .instr i := by
  unfold decodeTableWord at h
  split at h
  · rename_i hdec
    rw [hdec, Option.some.inj h]
  · cases h

/-- Bytes behind an instruction do not change what is decoded. -/
theorem decode_append {bs : List Byte} {i : Instr} (h : decode bs = .instr i) (rest : List Byte) :
    decode (bs ++ rest) = .instr i := by
  have hread := (decodeReadsOnlyTheInstruction bs i h).2 (bs.drop i.len ++ rest)
  rwa [← List.append_assoc, List.take_append_drop] at hread

theorem mode_launch_mapOperand (s : State) (bs : List Byte) (i : Instr) : ((s.launch bs).mapOperand i).mode = .long64 :=
  mode_enabled s

/-- The bytes launched stand where the next step fetches, also after the operand is mapped. -/
theorem fetches_launch_mapOperand {s : State} {bs : List Byte} {i : Instr} (hlen : bs.length ≤ 2 ^ 64)
    (hcan : ∀ j < bs.length, ((s.launch bs).mapOperand i).canonical (s.rip + BitVec.ofNat 64 j) = true) :
    Fetches ((s.launch bs).mapOperand i) bs := by
  intro j hj
  have haddr : ((s.launch bs).mapOperand i).fetchAddr = s.rip := by
    simp [State.fetchAddr, mode_launch_mapOperand]
  rw [haddr]
  exact fetchByte_of_mapped (hcan j hj) rfl (Memory.get_mapZero _ (get_setBytes hlen hj))

/-- Settles O5: the bytes of the word are fetched, and the decoder reads the same instruction with more bytes behind. -/
theorem launchedWordRuns : Obligations.LaunchedWordRuns := by
  intro s nbits w i hword hcan hlen
  rw [withFetchWord_of_decodeTableWord hword] at hcan ⊢
  obtain ⟨rest, hrest⟩ := fetchBytes_of_fetches hlen.le (fetches_launch_mapOperand hlen.le hcan)
  refine step_instr (by simp [mode_launch_mapOperand]) ?_
  rw [hrest]
  exact decode_append (decode_of_decodeTableWord hword) rest

/-! ## After a reset and an INIT (spec/70_reset_and_hazards.md R161) -/

theorem mode_of_cr0PE_clear {s : State} (h : s.cr0PE = false) : s.mode = .realAddress := by
  simp [State.mode, h]

/-- With the CS base and `rip` of a reset, real-address mode fetches 16 bytes below 4 GiB. -/
theorem fetchAddr_of_resetVector {s : State} (hm : s.mode = .realAddress) (hbase : s.csBase = State.reset.csBase)
    (hrip : s.rip = State.reset.rip) : s.fetchAddr = 0xFFFFFFF0#64 := by
  simp [State.fetchAddr, hm, hbase, hrip, State.reset]

theorem mode_reset : State.reset.mode = .realAddress := mode_of_cr0PE_clear (by decide)

theorem readG_reset (n : GReg) : State.reset.readG n = 0#64 := by
  simp [State.readG, State.reset]

/-- Settles O1: the registers are rows of zeros, and the other values are those of the table. -/
theorem resetStateValues : Obligations.ResetStateValues := by
  refine ⟨fun n => ?_, fun n => ?_, fun n _ => readG_reset n, rfl, rfl, fetchAddr_of_resetVector mode_reset rfl rfl,
    rfl, rfl, rfl, rfl, rfl, rfl, rfl, mode_reset⟩
  · simp [State.readV, State.reset]
  · simp [State.reset]

/-- Settles O2: a reset leaves real-address mode, where every form is #UD. -/
theorem resetEveryFormIsUd : Obligations.ResetEveryFormIsUd := fun i =>
  disabledFormsAreUd i State.reset (.inl mode_reset)

/-- CD and NW, bits 30 and 29, are kept, and of the other bits only bit 4 is set. -/
theorem getLsbD_cr0_afterInit (s : State) {n : Nat} (hn : n < 64) :
    s.afterInit.cr0.getLsbD n = if n = 29 ∨ n = 30 then s.cr0.getLsbD n else decide (n = 4) := by
  have hset : ∀ n < 64, (0x10#64).getLsbD n = decide (n = 4) := by decide
  have hkept : ∀ n < 64, (0x60000000#64).getLsbD n = decide (n = 29 ∨ n = 30) := by decide
  rw [State.afterInit_cr0, BitVec.getLsbD_or, BitVec.getLsbD_and, hset n hn, hkept n hn]
  split_ifs with h
  · have h4 : n ≠ 4 := by omega
    simp [h, h4]
  · simp [h]

theorem mode_afterInit (s : State) : s.afterInit.mode = .realAddress :=
  mode_of_cr0PE_clear (by simp [State.cr0PE])

/-- Settles O3: an INIT keeps the vector part, gives the rest the values of a reset, and leaves real-address mode. -/
theorem initKeepsVectors : Obligations.InitKeepsVectors := fun s =>
  ⟨rfl, rfl, rfl, rfl, rfl, fun n _ => readG_reset n, rfl, rfl, fetchAddr_of_resetVector (mode_afterInit s) rfl rfl,
    rfl, rfl, rfl, rfl, fun _ hn => getLsbD_cr0_afterInit s hn, fun i => disabledFormsAreUd i _ (.inl (mode_afterInit s))⟩

end Sys2Proof.Proofs

/-! PROOFS. The encodings of the spec's table (spec/95_test_vectors.md section 2): each is the one the encoder writes, so that
decoding it is decoding an encoding. -/

namespace Sys2Proof.Proofs

open Sys2Proof.Machine Sys2Proof.Spec

/-- Bytes that are the encoding of a well-formed instruction decode to it. -/
theorem decode_of_encode_eq {bs : List Byte} {i : Instr} (hwf : i.wf = true) (henc : encode i = bs) :
    decode bs = .instr i := by
  simpa [henc] using decode_encode_append hwf []

/-- Settles O12: the six rows E3, E20, E10, E16, E14 and E28 are encodings of the instructions they name. -/
theorem specEncodingsDecode : Obligations.SpecEncodingsDecode := by
  refine ⟨?_, ?_, ?_, ?_, ?_, ?_⟩ <;> exact decode_of_encode_eq (by decide) (by decide)

end Sys2Proof.Proofs
